-- ==== Sys2Proof/Word.lean ====
section
/-! DEFINITION. The words of the machine: bytes, 16-bit words, operand fields and sparse stores. -/

namespace Sys2Proof

/-- A general register, a byte of `MEM` or `VRAM`, an immediate `kk` (10_state.md R11, 20_memory.md R40). -/
abbrev Byte := BitVec 8

/-- `I`, `PC`, `IR` and a stack entry: 16 bits (10_state.md R14, R16, R20, R27). -/
abbrev Word := BitVec 16

/-- The immediate `n`, and the family of an instruction word (30_encoding.md R61). -/
abbrev Nibble := BitVec 4

/-- The immediate `nnn` (30_encoding.md R61). -/
abbrev Addr := BitVec 12

/-- The index of a general register, 0 to 15 (10_state.md R11, 30_encoding.md R61). -/
abbrev Reg := Fin 16

/-- A store of `w`-bit entries, listed sparsely by address; an unlisted address reads as 0.
Its operations and its canonical form are in Machine/Ops.lean (log 9). -/
abbrev Store (w : Nat) := List (Nat × BitVec w)

end Sys2Proof
end

