-- ==== Sys2Proof/Config.lean ====
section
/-! DEFINITION. What is fixed for one machine: the constants of 00_scope.md R6, the parameters of R7
that an instruction depends on, and the free values. -/

namespace Sys2Proof

/-- The parameters of 00_scope.md R7 that the CPU depends on. They are fixed for one machine; State
carries them so that a claim holds for every choice (log 8). -/
structure Config where
  /-- `MODE_OPS`: whether `00FE` and `00FF` are instructions (R7, 90_conflicts.md C1). -/
  modeOps : Bool
  /-- `STACK_DEPTH`: slots of the call stack (R7, 10_state.md R20). -/
  stackDepth : Nat
deriving DecidableEq, Repr

/-- The defaults 00_scope.md R7 gives the two parameters. -/
def Config.default : Config := { modeOps := true, stackDepth := 256 }

/-- `MEM_SIZE` (00_scope.md R6). -/
abbrev Config.memSize : Nat := 4096

/-- `VRAM_SIZE` (00_scope.md R6). -/
abbrev Config.vramSize : Nat := 1024

/-- `VRAM_ROW_BYTES` (00_scope.md R6). -/
abbrev Config.vramRowBytes : Nat := 16

/-- `PROG_BASE`: the entry point, and what `PC` takes on an out-of-range write (00_scope.md R6, 10_state.md R17). -/
abbrev Config.progBase : Nat := 512

/-- `PROG_MAX`: the most bytes of a program that are loaded (00_scope.md R6). -/
abbrev Config.progMax : Nat := 3584

/-- `FONT_STD_BASE` and `FONT_STD_LEN` (00_scope.md R6). -/
abbrev Config.fontStdBase : Nat := 0
abbrev Config.fontStdLen : Nat := 80

/-- `FONT_EXT_BASE` and `FONT_EXT_LEN` (00_scope.md R6). -/
abbrev Config.fontExtBase : Nat := 80
abbrev Config.fontExtLen : Nat := 320

/-- `FONT_GLYPH_STRIDE` (00_scope.md R6). -/
abbrev Config.fontGlyphStride : Nat := 5

/-- `INSN_BYTES` (00_scope.md R6). -/
abbrev Config.insnBytes : Nat := 2

/-- `TIMER_HZ` (00_scope.md R6). -/
abbrev Config.timerHz : Nat := 60

/-- FREE VALUE (log 3). The byte of the `n`-th draw: `Rand8` of 43_alu.md R141, any value 0 to 255. -/
opaque Config.rand8 : Nat → Byte

/-- FREE VALUE (log 4). The rate a `SchedTick` uses while `CLOCK_HZ` is unset, which 40_cycle_and_scheduler.md
R88 does not state. -/
opaque Config.unsetClockHz : Nat → Rat

end Sys2Proof
end

