-- ==== Sys2Proof/WellFormed.lean ====
section
/-! DEFINITION. Which instructions a machine has. Operand ranges (30_encoding.md R63) are in the operands' types. -/

namespace Sys2Proof

/-- The one check an instruction can fail: rows 3 and 4 of the opcode map exist only when `MODE_OPS` is
true (30_encoding.md R66, R67). -/
def Instr.wellFormed (modeOps : Bool) : Instr → Bool
  | .low => modeOps
  | .high => modeOps
  | .cls | .ret | .jp _ | .call _ | .seImm _ _ | .sneImm _ _ | .seReg _ _ _ | .ldImm _ _ | .addImm _ _
  | .ldReg _ _ | .orReg _ _ | .andReg _ _ | .xorReg _ _ | .addReg _ _ | .sub _ _ | .shr _ _ | .subn _ _
  | .shl _ _ | .sneReg _ _ _ | .ldI _ | .jpV0 _ | .rnd _ _ | .drw _ _ _ | .skp _ | .sknp _ | .ldVxDt _
  | .ldVxK _ | .ldDtVx _ | .ldStVx _ | .addI _ | .ldF _ | .ldB _ | .ldStore _ | .ldLoad _ => true

end Sys2Proof
end

