-- ==== Sys2Proof/Decode.lean ====
section
/-! DEFINITION. Decoding and encoding (30_encoding.md R60 to R68). Decode is the two-level table of R64: by
family, then in families 0, 8, E and F by a second discriminant. -/

namespace Sys2Proof

/-- Why bytes are no instruction. -/
inductive DecodeError where
  /-- A word that matches no row of the opcode map (30_encoding.md R67). -/
  | miss (w : Word)
  /-- Fewer than the two bytes every instruction has (30_encoding.md R60). -/
  | truncated
deriving DecidableEq, Repr

/-! ## Fields (30_encoding.md R61) -/

/-- `fam`: bits 15 to 12. -/
def family (w : Word) : Nibble := w.extractLsb' 12 4

/-- `nnn`: bits 11 to 0. -/
def fieldNnn (w : Word) : Addr := w.extractLsb' 0 12

/-- `x`: bits 11 to 8. -/
def fieldX (w : Word) : Reg := (w.extractLsb' 8 4).toFin

/-- `y`: bits 7 to 4. -/
def fieldY (w : Word) : Reg := (w.extractLsb' 4 4).toFin

/-- `kk`: bits 7 to 0. -/
def fieldKk (w : Word) : Byte := w.extractLsb' 0 8

/-- `n`: bits 3 to 0. -/
def fieldN (w : Word) : Nibble := w.extractLsb' 0 4

/-! ## Decode -/

/-- Family 0, keyed by the full 12 bits (30_encoding.md R64, R68); `LOW` and `HIGH` only with `MODE_OPS` (R66). -/
def decodeFamily0 (modeOps : Bool) (w : Word) : Except DecodeError Instr :=
  if fieldNnn w = 0x0E0#12 then .ok .cls
  else if fieldNnn w = 0x0EE#12 then .ok .ret
  else if fieldNnn w = 0x0FE#12 ∧ modeOps = true then .ok .low
  else if fieldNnn w = 0x0FF#12 ∧ modeOps = true then .ok .high
  else .error (.miss w)

/-- Family 8, keyed by the low nibble (30_encoding.md R64, R68). -/
def decodeFamily8 (w : Word) : Except DecodeError Instr :=
  if fieldN w = 0x0#4 then .ok (.ldReg (fieldX w) (fieldY w))
  else if fieldN w = 0x1#4 then .ok (.orReg (fieldX w) (fieldY w))
  else if fieldN w = 0x2#4 then .ok (.andReg (fieldX w) (fieldY w))
  else if fieldN w = 0x3#4 then .ok (.xorReg (fieldX w) (fieldY w))
  else if fieldN w = 0x4#4 then .ok (.addReg (fieldX w) (fieldY w))
  else if fieldN w = 0x5#4 then .ok (.sub (fieldX w) (fieldY w))
  else if fieldN w = 0x6#4 then .ok (.shr (fieldX w) (fieldY w))
  else if fieldN w = 0x7#4 then .ok (.subn (fieldX w) (fieldY w))
  else if fieldN w = 0xE#4 then .ok (.shl (fieldX w) (fieldY w))
  else .error (.miss w)

/-- Family E, keyed by the low byte (30_encoding.md R64, R68). -/
def decodeFamilyE (w : Word) : Except DecodeError Instr :=
  if fieldKk w = 0x9E#8 then .ok (.skp (fieldX w))
  else if fieldKk w = 0xA1#8 then .ok (.sknp (fieldX w))
  else .error (.miss w)

/-- Family F, keyed by the low byte (30_encoding.md R64, R68). -/
def decodeFamilyF (w : Word) : Except DecodeError Instr :=
  if fieldKk w = 0x07#8 then .ok (.ldVxDt (fieldX w))
  else if fieldKk w = 0x0A#8 then .ok (.ldVxK (fieldX w))
  else if fieldKk w = 0x15#8 then .ok (.ldDtVx (fieldX w))
  else if fieldKk w = 0x18#8 then .ok (.ldStVx (fieldX w))
  else if fieldKk w = 0x1E#8 then .ok (.addI (fieldX w))
  else if fieldKk w = 0x29#8 then .ok (.ldF (fieldX w))
  else if fieldKk w = 0x33#8 then .ok (.ldB (fieldX w))
  else if fieldKk w = 0x55#8 then .ok (.ldStore (fieldX w))
  else if fieldKk w = 0x65#8 then .ok (.ldLoad (fieldX w))
  else .error (.miss w)

/-- The instruction a word is, or the decode miss (30_encoding.md R64 to R67). -/
def decodeWord (modeOps : Bool) (w : Word) : Except DecodeError Instr :=
  if family w = 0x0#4 then decodeFamily0 modeOps w
  else if family w = 0x1#4 then .ok (.jp (fieldNnn w))
  else if family w = 0x2#4 then .ok (.call (fieldNnn w))
  else if family w = 0x3#4 then .ok (.seImm (fieldX w) (fieldKk w))
  else if family w = 0x4#4 then .ok (.sneImm (fieldX w) (fieldKk w))
  else if family w = 0x5#4 then .ok (.seReg (fieldX w) (fieldY w) (fieldN w))
  else if family w = 0x6#4 then .ok (.ldImm (fieldX w) (fieldKk w))
  else if family w = 0x7#4 then .ok (.addImm (fieldX w) (fieldKk w))
  else if family w = 0x8#4 then decodeFamily8 w
  else if family w = 0x9#4 then .ok (.sneReg (fieldX w) (fieldY w) (fieldN w))
  else if family w = 0xA#4 then .ok (.ldI (fieldNnn w))
  else if family w = 0xB#4 then .ok (.jpV0 (fieldNnn w))
  else if family w = 0xC#4 then .ok (.rnd (fieldX w) (fieldKk w))
  else if family w = 0xD#4 then .ok (.drw (fieldX w) (fieldY w) (fieldN w))
  else if family w = 0xE#4 then decodeFamilyE w
  else decodeFamilyF w

/-- The word two bytes form, the byte at the lower address being bits 15 to 8 (20_memory.md R46). -/
def wordOfBytes (hi lo : Byte) : Word := hi ++ lo

/-- Decode the instruction at the head of a byte sequence, and give the bytes after it. -/
def decode (modeOps : Bool) : List Byte → Except DecodeError (Instr × List Byte)
  | hi :: lo :: rest =>
    match decodeWord modeOps (wordOfBytes hi lo) with
    | .ok i => .ok (i, rest)
    | .error e => .error e
  | [] => .error .truncated
  | [_] => .error .truncated

/-! ## Encode (30_encoding.md R61, R62, R66) -/

/-- Format `NNN`. -/
def packNnn (fam : Nibble) (nnn : Addr) : Word := fam ++ nnn

/-- Formats `XKK` and `X`. -/
def packXkk (fam : Nibble) (x : Reg) (kk : Byte) : Word := fam ++ (BitVec.ofFin x : Nibble) ++ kk

/-- Formats `XY` and `XYN`. -/
def packXyn (fam : Nibble) (x y : Reg) (n : Nibble) : Word :=
  fam ++ (BitVec.ofFin x : Nibble) ++ (BitVec.ofFin y : Nibble) ++ n

/-- The word of an instruction. -/
def encode : Instr → Word
  | .cls => packNnn 0x0#4 0x0E0#12
  | .ret => packNnn 0x0#4 0x0EE#12
  | .low => packNnn 0x0#4 0x0FE#12
  | .high => packNnn 0x0#4 0x0FF#12
  | .jp nnn => packNnn 0x1#4 nnn
  | .call nnn => packNnn 0x2#4 nnn
  | .seImm x kk => packXkk 0x3#4 x kk
  | .sneImm x kk => packXkk 0x4#4 x kk
  | .seReg x y n => packXyn 0x5#4 x y n
  | .ldImm x kk => packXkk 0x6#4 x kk
  | .addImm x kk => packXkk 0x7#4 x kk
  | .ldReg x y => packXyn 0x8#4 x y 0x0#4
  | .orReg x y => packXyn 0x8#4 x y 0x1#4
  | .andReg x y => packXyn 0x8#4 x y 0x2#4
  | .xorReg x y => packXyn 0x8#4 x y 0x3#4
  | .addReg x y => packXyn 0x8#4 x y 0x4#4
  | .sub x y => packXyn 0x8#4 x y 0x5#4
  | .shr x y => packXyn 0x8#4 x y 0x6#4
  | .subn x y => packXyn 0x8#4 x y 0x7#4
  | .shl x y => packXyn 0x8#4 x y 0xE#4
  | .sneReg x y n => packXyn 0x9#4 x y n
  | .ldI nnn => packNnn 0xA#4 nnn
  | .jpV0 nnn => packNnn 0xB#4 nnn
  | .rnd x kk => packXkk 0xC#4 x kk
  | .drw x y n => packXyn 0xD#4 x y n
  | .skp x => packXkk 0xE#4 x 0x9E#8
  | .sknp x => packXkk 0xE#4 x 0xA1#8
  | .ldVxDt x => packXkk 0xF#4 x 0x07#8
  | .ldVxK x => packXkk 0xF#4 x 0x0A#8
  | .ldDtVx x => packXkk 0xF#4 x 0x15#8
  | .ldStVx x => packXkk 0xF#4 x 0x18#8
  | .addI x => packXkk 0xF#4 x 0x1E#8
  | .ldF x => packXkk 0xF#4 x 0x29#8
  | .ldB x => packXkk 0xF#4 x 0x33#8
  | .ldStore x => packXkk 0xF#4 x 0x55#8
  | .ldLoad x => packXkk 0xF#4 x 0x65#8

/-- The high byte of a word, which is stored at the lower address (20_memory.md R46). -/
def highByte (w : Word) : Byte := w.extractLsb' 8 8

/-- The low byte of a word. -/
def lowByte (w : Word) : Byte := w.extractLsb' 0 8

/-- The two bytes of an instruction as they lie in memory. -/
def encodeBytes (i : Instr) : List Byte := [highByte (encode i), lowByte (encode i)]

/-! ## The opcode map as the spec lays it out -/

/-- A row of the opcode map: a word `w` is the instruction iff `w & mask = pattern` (30_encoding.md R66). -/
structure OpcodeRow where
  mnemonic : String
  mask : Word
  pattern : Word
deriving DecidableEq, Repr

/-- The rows 1 to 36 of 30_encoding.md R66, with the mnemonics of the opcode table. -/
def opcodeMap : List OpcodeRow :=
  [⟨"CLS", 0xFFFF#16, 0x00E0#16⟩, ⟨"RET", 0xFFFF#16, 0x00EE#16⟩, ⟨"LOW", 0xFFFF#16, 0x00FE#16⟩,
   ⟨"HIGH", 0xFFFF#16, 0x00FF#16⟩, ⟨"JP", 0xF000#16, 0x1000#16⟩, ⟨"CALL", 0xF000#16, 0x2000#16⟩,
   ⟨"SE_imm", 0xF000#16, 0x3000#16⟩, ⟨"SNE_imm", 0xF000#16, 0x4000#16⟩, ⟨"SE_reg", 0xF000#16, 0x5000#16⟩,
   ⟨"LD_imm", 0xF000#16, 0x6000#16⟩, ⟨"ADD_imm", 0xF000#16, 0x7000#16⟩, ⟨"LD_reg", 0xF00F#16, 0x8000#16⟩] ++
  [⟨"OR", 0xF00F#16, 0x8001#16⟩, ⟨"AND", 0xF00F#16, 0x8002#16⟩, ⟨"XOR", 0xF00F#16, 0x8003#16⟩,
   ⟨"ADD_reg", 0xF00F#16, 0x8004#16⟩, ⟨"SUB", 0xF00F#16, 0x8005#16⟩, ⟨"SHR", 0xF00F#16, 0x8006#16⟩,
   ⟨"SUBN", 0xF00F#16, 0x8007#16⟩, ⟨"SHL", 0xF00F#16, 0x800E#16⟩, ⟨"SNE_reg", 0xF000#16, 0x9000#16⟩,
   ⟨"LD_I", 0xF000#16, 0xA000#16⟩, ⟨"JP_V0", 0xF000#16, 0xB000#16⟩, ⟨"RND", 0xF000#16, 0xC000#16⟩] ++
  [⟨"DRW", 0xF000#16, 0xD000#16⟩, ⟨"SKP", 0xF0FF#16, 0xE09E#16⟩, ⟨"SKNP", 0xF0FF#16, 0xE0A1#16⟩,
   ⟨"LD_Vx_DT", 0xF0FF#16, 0xF007#16⟩, ⟨"LD_Vx_K", 0xF0FF#16, 0xF00A#16⟩, ⟨"LD_DT_Vx", 0xF0FF#16, 0xF015#16⟩,
   ⟨"LD_ST_Vx", 0xF0FF#16, 0xF018#16⟩, ⟨"ADD_I", 0xF0FF#16, 0xF01E#16⟩, ⟨"LD_F", 0xF0FF#16, 0xF029#16⟩,
   ⟨"LD_B", 0xF0FF#16, 0xF033#16⟩, ⟨"LD_store", 0xF0FF#16, 0xF055#16⟩, ⟨"LD_load", 0xF0FF#16, 0xF065#16⟩]

/-! ## The host's entry point -/

/-- The instruction the decoder reads from a word whose bits are numbered as the opcode table numbers them; bits
above `nbits` are 0. `MODE_OPS` is at its default (00_scope.md R7). -/
def decodeTableWord (nbits w : Nat) : Option Instr :=
  let word : Word := BitVec.ofNat 16 (w % 2 ^ nbits)
  match decode Config.default.modeOps [highByte word, lowByte word] with
  | .ok (i, _) => some i
  | .error _ => none

end Sys2Proof
end

