-- ==== Sys2Proof/Machine/State.lean ====
section
/-! DEFINITION. The state of the block (10_state.md R10), the reasons a step can stop, and the state after reset. -/

namespace Sys2Proof.Machine

/-- Main memory: a sparse list of (address, byte), an unlisted address reading as 0, which is what
10_state.md R33 gives every byte at reset (log 9). -/
abbrev Memory := List Host.Cell

/-- The five cycle faults of 60_exceptions.md R200, each with the `info` it records. -/
inductive CycleFault where
  /-- Code 1 (R201); `info` is `PC`. -/
  | fetchOutOfRange (pc : Word)
  /-- Code 2 (R202); `info` is the rejected value, `PC` and `IR`. -/
  | indexOutOfRange (value : Nat) (pc ir : Word)
  /-- Code 3 (R203); `info` is the first address out of range, `PC` and `IR`. -/
  | memAccessOutOfRange (addr : Nat) (pc ir : Word)
  /-- Code 4 (R204); `info` is `PC` and `IR`. -/
  | stackOverflow (pc ir : Word)
  /-- Code 5 (R205); `info` is `PC` and `IR`. -/
  | stackUnderflow (pc ir : Word)
deriving DecidableEq, Repr

/-- `STATUS` (10_state.md R29). -/
inductive Status where
  | running
  | faulted (f : CycleFault)
deriving DecidableEq, Repr

/-- One countdown timer: its 8-bit value (10_state.md R22) and its phase, the time in seconds since its countdown
was armed (R23). At value 0 no countdown exists and the phase is 0 (log 7). -/
structure Timer where
  value : Byte
  phase : Rat
deriving DecidableEq, Repr

/-- The font store once the host has supplied both blocks (10_state.md R31). -/
structure Fonts where
  std : List Byte
  ext : List Byte
deriving DecidableEq, Repr

/-- The two timers (10_state.md R22). -/
inductive TimerId where
  | delay
  | sound
deriving DecidableEq, Repr

/-- The argument of `SetClockHz`: a finite number, or what is none, such as an infinity, which the operation rejects
(40_cycle_and_scheduler.md R90; log 17). -/
inductive Rate where
  | finite (hz : Rat)
  | notFinite
deriving DecidableEq, Repr

/-- A turn of one agent (00_scope.md R8, 60_exceptions.md R209). -/
inductive Event where
  /-- The CPU may take one `Cycle` (40_cycle_and_scheduler.md R80). -/
  | cycle
  /-- `TimerTick` of one timer, at any time, as in the untimed view (60_exceptions.md R215). -/
  | timerTick (t : TimerId)
  /-- `d` seconds of time pass, with every tick that falls due in them (60_exceptions.md R216). -/
  | elapse (d : Rat)
  /-- `Press(k)` (60_exceptions.md R220). -/
  | press (k : Nat)
  /-- `Release(k)` (60_exceptions.md R220). -/
  | release (k : Nat)
  /-- `SchedTick(now)` (40_cycle_and_scheduler.md R88). -/
  | schedTick (now : Rat)
  /-- `SetClockHz(hz)` (40_cycle_and_scheduler.md R90). -/
  | setClockHz (hz : Rate)
  /-- `SetMode(e)`, a host operation only when `MODE_OPS` is false (45_draw.md R172); when it may come is log 21. -/
  | setMode (e : Bool)
  /-- `ProvideFonts(std, ext)` (70_reset_and_hazards.md R242). -/
  | provideFonts (std ext : List Byte)
  /-- `LoadProgram(rom)` (70_reset_and_hazards.md R243). -/
  | loadProgram (rom : List Byte)
  /-- `Reset` (70_reset_and_hazards.md R240). -/
  | reset
  /-- `PowerOn` (70_reset_and_hazards.md R241). -/
  | powerOn
deriving DecidableEq, Repr

/-- The state. The first nineteen components are those of 10_state.md R10; the last four are the model's own. -/
structure State where
  /-- `V0` to `VF` (R11). -/
  v : Vector Byte 16
  /-- `I` (R14). -/
  i : Word
  /-- `PC` (R16). -/
  pc : Word
  /-- `STACK`, dead entries included (R20, R21). -/
  stack : Store 16
  /-- `SP`, the number of entries in use (R20). -/
  sp : Nat
  /-- `DT` and `DT_PHASE` (R22, R23). -/
  dt : Timer
  /-- `ST` and `ST_PHASE` (R22, R23). -/
  st : Timer
  /-- `KEY` (R24). -/
  key : Vector Bool 16
  /-- `VRAM` (R25). -/
  vram : Store 8
  /-- `EXT` (R26). -/
  ext : Bool
  /-- `MEM` (20_memory.md R40). -/
  mem : Memory
  /-- `IR` (R27). -/
  ir : Word
  /-- `AUDIO` (R28). -/
  audio : Bool
  /-- `STATUS` (R29). -/
  status : Status
  /-- `CLOCK_HZ`; `none` is the spec's own "unset" (R30, 70_reset_and_hazards.md R241). -/
  clockHz : Option Rat
  /-- `LAST_T` (R30). -/
  lastT : Option Rat
  /-- `FONTS` (R31). -/
  fonts : Option Fonts
  /-- The model's own: the parameters of 00_scope.md R7, which no step changes (log 8). -/
  config : Config
  /-- The model's own: cycles of the current burst still to run (log 6). -/
  burst : Nat
  /-- The model's own: how many free values have been drawn (log 3). -/
  draws : Nat
  /-- The model's own: the turns still to come, the next first (log 1). -/
  agenda : List Event
deriving DecidableEq, Repr

/-- Why `step` stops the machine. -/
inductive Fault where
  /-- Raised by the CPU's turn when `STATUS` is `Faulted` and no agent has a turn to come: no `Cycle` exists
  (40_cycle_and_scheduler.md R92), so the machine stands still until the host acts. Safe: nothing is claimed of what follows. -/
  | stopped (f : CycleFault)
deriving DecidableEq, Repr

/-- Why the model has no meaning for a step. -/
inductive Refusal where
  /-- Raised by an arm of `exec` whose instruction has no meaning yet; no arm is one. Safe. -/
  | notModelled (mnemonic : String)
deriving DecidableEq, Repr

/-- The state after `PowerOn`, which is `Reset` and the three values of 70_reset_and_hazards.md R241; every component
of 10_state.md R33 is at the value that rule gives (log 10). -/
def State.reset : State where
  v := Vector.replicate 16 0#8
  i := 0#16
  pc := 512#16
  stack := []
  sp := 0
  dt := { value := 0#8, phase := 0 }
  st := { value := 0#8, phase := 0 }
  key := Vector.replicate 16 false
  vram := []
  ext := false
  mem := []
  ir := 0#16
  audio := false
  status := .running
  clockHz := none
  lastT := none
  fonts := none
  config := Config.default
  burst := 0
  draws := 0
  agenda := []

end Sys2Proof.Machine
end

