-- ==== Sys2Proof/Machine/Ops.lean ====
section
/-! DEFINITION. The named operations over registers, memory, the stack and the program counter, the end of a cycle,
and raising a fault. -/

namespace Sys2Proof

/-! ## Sparse stores (log 9) -/

/-- The entry at an address; 0 where nothing is listed. -/
def Store.read {w : Nat} : Store w → Nat → BitVec w
  | [], _ => 0#w
  | (k, u) :: rest, a => if k = a then u else Store.read rest a

/-- The list without its entries at an address. -/
def Store.erase {w : Nat} : Store w → Nat → Store w
  | [], _ => []
  | (k, u) :: rest, a => if k = a then Store.erase rest a else (k, u) :: Store.erase rest a

/-- The list with an entry put before the first larger address. -/
def Store.insert {w : Nat} : Store w → Nat → BitVec w → Store w
  | [], a, b => [(a, b)]
  | (k, u) :: rest, a, b => if a < k then (a, b) :: (k, u) :: rest else (k, u) :: Store.insert rest a b

/-- Write an entry. Writing 0, what an unlisted address reads as, lists nothing. -/
def Store.write {w : Nat} (m : Store w) (a : Nat) (b : BitVec w) : Store w :=
  if b = 0#w then Store.erase m a else Store.insert (Store.erase m a) a b

/-- Write a sequence of entries at ascending addresses. -/
def Store.writeList {w : Nat} : Store w → Nat → List (BitVec w) → Store w
  | m, _, [] => m
  | m, a, b :: bs => Store.writeList (Store.write m a b) (a + 1) bs

/-- The `n` entries at ascending addresses. -/
def Store.readList {w : Nat} (m : Store w) (a n : Nat) : List (BitVec w) :=
  (List.range n).map fun j => Store.read m (a + j)

/-- The canonical form: addresses strictly rising from `lo`, all below `hi`, no entry 0. -/
def Store.wfFrom {w : Nat} (lo hi : Nat) : Store w → Bool
  | [] => true
  | (k, u) :: rest => decide (lo ≤ k) && decide (k < hi) && u != 0#w && Store.wfFrom (k + 1) hi rest

/-- The canonical form of a store of `size` entries. -/
def Store.wf {w : Nat} (size : Nat) (m : Store w) : Bool := Store.wfFrom 0 size m

end Sys2Proof

namespace Sys2Proof.Machine

/-- The canonical form of main memory: 4096 bytes (20_memory.md R40). -/
def Memory.wf (m : Memory) : Bool := Store.wf (w := 8) Config.memSize m

/-! ## General registers (10_state.md R11) -/

/-- `V[x]`. -/
def State.reg (s : State) (x : Reg) : Byte := s.v[x]

/-- `V[x] <- b`. -/
def State.setReg (s : State) (x : Reg) (b : Byte) : State := { s with v := s.v.set x b }

/-- `VF`, the flag register (10_state.md R12). -/
abbrev vf : Reg := 15

/-- Write bytes to consecutive registers from index `j` on, ascending. -/
def loadRegs (v : Vector Byte 16) (j : Nat) : List Byte → Vector Byte 16
  | [] => v
  | b :: bs => loadRegs (v.setIfInBounds j b) (j + 1) bs

/-! ## Program counter and address register -/

/-- What a write of `t` leaves in `PC`: `t`, or 512 when `t` is above 4095 (10_state.md R17). -/
def pcTarget (t : Nat) : Word :=
  if t < Config.memSize then BitVec.ofNat 16 t else BitVec.ofNat 16 Config.progBase

/-- `SetPC(t)` (10_state.md R17). -/
def State.setPc (s : State) (t : Nat) : State := { s with pc := pcTarget t }

/-- `SetI(v)`: a value above 4095 is rejected with `IndexOutOfRange` (10_state.md R15). -/
def State.setI (s : State) (v : Nat) : Except CycleFault State :=
  if v < Config.memSize then .ok { s with i := BitVec.ofNat 16 v } else .error (.indexOutOfRange v s.pc s.ir)

/-! ## Call stack (10_state.md R21) -/

/-- `Push(v)`; `StackOverflow` when every slot is in use. -/
def State.push (s : State) (v : Word) : Except CycleFault State :=
  if s.sp < s.config.stackDepth then .ok { s with stack := Store.write s.stack s.sp v, sp := s.sp + 1 }
  else .error (.stackOverflow s.pc s.ir)

/-- `Pop()`; `StackUnderflow` when no slot is in use. The entry keeps its value. -/
def State.pop (s : State) : Except CycleFault (Word × State) :=
  if s.sp = 0 then .error (.stackUnderflow s.pc s.ir)
  else .ok (Store.read s.stack (s.sp - 1), { s with sp := s.sp - 1 })

/-! ## Main memory (20_memory.md R42) -/

/-- One byte of `MEM`, for an address below 4096. -/
def State.byte (s : State) (a : Nat) : Byte := Store.read (w := 8) s.mem a

/-- Whether `n` bytes from `a` reach past the end of memory; no bytes never do. -/
def blockOutOfRange (a n : Nat) : Bool := decide (0 < n) && decide (Config.memSize < a + n)

/-- `MemRead` of `n` bytes at ascending addresses, the whole range checked first (20_memory.md R42,
60_exceptions.md R203). The `info` is 4096 (R203; log 15). -/
def State.readBlock (s : State) (a n : Nat) : Except CycleFault (List Byte) :=
  if blockOutOfRange a n then .error (.memAccessOutOfRange Config.memSize s.pc s.ir)
  else .ok (Store.readList (w := 8) s.mem a n)

/-- `MemWrite` of bytes at ascending addresses, the whole range checked before any write (20_memory.md R42,
60_exceptions.md R203). -/
def State.writeBlock (s : State) (a : Nat) (bytes : List Byte) : Except CycleFault State :=
  if blockOutOfRange a bytes.length then .error (.memAccessOutOfRange Config.memSize s.pc s.ir)
  else .ok { s with mem := Store.writeList (w := 8) s.mem a bytes }

/-! ## The end of a cycle (40_cycle_and_scheduler.md R80 steps 5 and 6) -/

/-- The audio step: `AUDIO <- (ST > 0)` (40_cycle_and_scheduler.md R85). -/
def State.audioStep (s : State) : State := { s with audio := s.st.value != 0#8 }

/-- The end of a cycle whose handler did not set `suppress`: auto-increment, then the audio step (R84, R85). -/
def State.endCycle (s : State) : State := (s.setPc (s.pc.toNat + Config.insnBytes)).audioStep

/-- Complete the cycle with the auto-increment. -/
def advance (s : State) : Host.Outcome State Fault Refusal := .next s.endCycle

/-- Complete the cycle at a target: the handler wrote `PC` and set `suppress` (40_cycle_and_scheduler.md R83). -/
def jumpTo (t : Nat) (s : State) : Host.Outcome State Fault Refusal := .next (s.setPc t).audioStep

/-- `Skip()` when the condition holds, else the auto-increment (42_control_transfer.md R118). -/
def skipIf (c : Bool) (s : State) : Host.Outcome State Fault Refusal :=
  if c then jumpTo (s.pc.toNat + 2 * Config.insnBytes) s else advance s

/-! ## Raising a fault (60_exceptions.md R211) -/

/-- The state after `raise`: `STATUS` records the fault and the burst ends; nothing else changes (R211, R87). -/
def State.faulted (s : State) (f : CycleFault) : State := { s with status := .faulted f, burst := 0 }

/-- `raise f`: the cycle ends here, without auto-increment or audio step. There is no handler and no return (R211, R212). -/
def raise (f : CycleFault) (s : State) : Host.Outcome State Fault Refusal := .next (s.faulted f)

/-- Complete the cycle with the state an operation answers, or raise its fault in the state before it. -/
def advanceOr (s : State) : Except CycleFault State → Host.Outcome State Fault Refusal
  | .ok t => advance t
  | .error f => raise f s

/-! ## Fetch (40_cycle_and_scheduler.md R81) -/

/-- Put a word's two bytes at an address, the high byte first (20_memory.md R46). -/
def State.putWord (s : State) (a : Nat) (hi lo : Byte) : State :=
  { s with mem := Store.write (w := 8) (Store.write (w := 8) s.mem a hi) (a + 1) lo }

end Sys2Proof.Machine
end

