-- ==== Sys2Proof/Machine/Flags.lean ====
section
/-! DEFINITION. The values written to `VF` as a flag (10_state.md R12), and the order of the two writes
(43_alu.md R143). -/

namespace Sys2Proof.Machine

/-- A Boolean stored into a register is 1 or 0 (00_scope.md R9). -/
def flagByte (c : Bool) : Byte := if c then 1#8 else 0#8

/-- `ADD Vx,Vy`: 1 iff the unwrapped sum is above 255 (43_alu.md R136). -/
def carryFlag (a b : Byte) : Byte := flagByte (decide (255 < a.toNat + b.toNat))

/-- `SUB` and `SUBN`: 1 iff the first operand is strictly greater (43_alu.md R137, R139). -/
def greaterFlag (a b : Byte) : Byte := flagByte (decide (b.toNat < a.toNat))

/-- `SHR`: the bit shifted out, bit 0 (43_alu.md R138). -/
def lowBitFlag (a : Byte) : Byte := a &&& 1#8

/-- `SHL`: 1 iff bit 7 was set (43_alu.md R140). -/
def highBitFlag (a : Byte) : Byte := flagByte (decide (a &&& 0x80#8 ≠ 0#8))

/-- The result to `V[x]`, then the flag to `VF`: with `x = F` the flag is what stays (43_alu.md R143). -/
def State.setRegAndFlag (s : State) (x : Reg) (result flag : Byte) : State := (s.setReg x result).setReg vf flag

end Sys2Proof.Machine
end

