-- ==== Sys2Proof/Machine/Operands.lean ====
section
/-! DEFINITION. The operand forms: key numbers, effective addresses, BCD digits, sprite geometry. Immediates and
register indices are used as they stand in the word (30_encoding.md R63). -/

namespace Sys2Proof.Machine

/-- `KeyDown(k)`: false for a key that does not exist (46_keys_timers.md R196). -/
def State.keyDown (s : State) (k : Nat) : Bool := if h : k < 16 then s.key[k] else false

/-- The least key that is down, if any (46_keys_timers.md R193). -/
def State.leastKey (s : State) : Option Nat := s.key.toList.findIdx? id

/-- The effective address `I + offset` (44_index_memory.md, the head of the file). -/
def State.dataAddr (s : State) (offset : Nat) : Nat := s.i.toNat + offset

/-- The BCD digits of a byte: hundreds, tens, ones (44_index_memory.md R153). -/
def bcdDigits (b : Byte) : List Byte :=
  [BitVec.ofNat 8 (b.toNat / 100), BitVec.ofNat 8 (b.toNat / 10 % 10), BitVec.ofNat 8 (b.toNat % 10)]

/-- `V0` to `Vx`, in index order (44_index_memory.md R154). -/
def State.regsUpTo (s : State) (x : Reg) : List Byte := s.v.toList.take (x.val + 1)

/-- The active width `W` (20_memory.md R50). -/
def activeWidth (ext : Bool) : Nat := if ext then 128 else 64

/-- The active height `H` (20_memory.md R50). -/
def activeHeight (ext : Bool) : Nat := if ext then 64 else 32

/-- The rows of a sprite and its bytes for each row (45_draw.md R177). -/
def spriteShape (ext : Bool) (n : Nibble) : Nat × Nat := if ext ∧ n = 0#4 then (16, 2) else (n.toNat, 1)

/-- The bytes a sprite has in memory (45_draw.md R177). -/
def spriteBytes (ext : Bool) (n : Nibble) : Nat := (spriteShape ext n).1 * (spriteShape ext n).2

/-- The bits of a sprite's row `r` and their number, from `MEM` at `I`: the byte at the lower address is the left
half of a 16-pixel row (45_draw.md R176). -/
def State.spriteRow (s : State) (ext : Bool) (n : Nibble) (r : Nat) : Nat × Nat :=
  if (spriteShape ext n).2 = 1 then ((s.byte (s.dataAddr r)).toNat, 8)
  else ((s.byte (s.dataAddr (2 * r))).toNat * 256 + (s.byte (s.dataAddr (2 * r + 1))).toNat, 16)

end Sys2Proof.Machine
end

