-- ==== Sys2Proof/Machine/Draw.lean ====
section
/-! DEFINITION. The framebuffer primitives, and `DRW`, `CLS`, `LOW`, `HIGH` (41_system_display.md, 45_draw.md). -/

namespace Sys2Proof.Machine

/-! ## Pixels (20_memory.md R49) -/

/-- The byte of `VRAM` that holds pixel `(x, y)`. -/
def pixelByte (x y : Nat) : Nat := Config.vramRowBytes * y + x / 8

/-- The mask of pixel `(x, y)` within its byte: bit `7 - (x mod 8)`. -/
def pixelMask (x : Nat) : Byte := BitVec.twoPow 8 (7 - x % 8)

/-- Whether pixel `(x, y)` of a framebuffer is lit. -/
def pixelLit (vram : Store 8) (x y : Nat) : Bool := (Store.read vram (pixelByte x y)).getLsbD (7 - x % 8)

/-- The framebuffer with pixel `(x, y)` toggled. -/
def pixelToggle (vram : Store 8) (x y : Nat) : Store 8 :=
  Store.write vram (pixelByte x y) (Store.read vram (pixelByte x y) ^^^ pixelMask x)

/-- `PixGet(x, y)`: the coordinates wrap modulo the active resolution (45_draw.md R170, 20_memory.md R50). -/
def State.pixGet (s : State) (x y : Nat) : Bool :=
  pixelLit s.vram (x % activeWidth s.ext) (y % activeHeight s.ext)

/-- `PixXor1(px, py)`: toggle a pixel; the Boolean says whether it was lit, joined with what was so far
(45_draw.md R173). -/
def pixXor1 (acc : Store 8 × Bool) (px py : Nat) : Store 8 × Bool :=
  (pixelToggle acc.1 px py, acc.2 || pixelLit acc.1 px py)

/-- `DrawRow(x, y, bits, nbits)`: the bits of one row, the most significant leftmost; the row wraps onto itself
(45_draw.md R173). The framebuffer and the collision found so far go in and come out. -/
def drawRow (ext : Bool) (x y bits nbits : Nat) (acc : Store 8 × Bool) : Store 8 × Bool :=
  (List.range nbits).foldl
    (fun acc i =>
      if bits.testBit (nbits - 1 - i) then
        pixXor1 acc ((x % activeWidth ext + i) % activeWidth ext) (y % activeHeight ext)
      else acc)
    acc

/-- The rows of a sprite drawn in ascending order at `(x, y)`; the Boolean is the collision over the whole sprite
(45_draw.md R175, R178). Rows are read from the memory of `s`. -/
def State.drawSprite (s : State) (x y : Nat) (n : Nibble) : Store 8 × Bool :=
  (List.range (spriteShape s.ext n).1).foldl
    (fun acc r => drawRow s.ext x (y + r) (s.spriteRow s.ext n r).1 (s.spriteRow s.ext n r).2 acc)
    (s.vram, false)

/-- `SetMode(e)`: the mode and nothing else (45_draw.md R172). -/
def State.setMode (s : State) (e : Bool) : State := { s with ext := e }

/-! ## Instructions -/

/-- `CLS`: every byte of `VRAM` is 0 (41_system_display.md R100). -/
def execCls (s : State) : Host.Outcome State Fault Refusal := advance { s with vram := [] }

/-- `LOW` (41_system_display.md R101). -/
def execLow (s : State) : Host.Outcome State Fault Refusal := advance (s.setMode false)

/-- `HIGH` (41_system_display.md R102). -/
def execHigh (s : State) : Host.Outcome State Fault Refusal := advance (s.setMode true)

/-- `DRW Vx,Vy,nibble` (45_draw.md R175): the range check first, then `VF` is cleared, then the coordinates are read
once, then the sprite is drawn and `VF` is its collision. -/
def execDrw (x y : Reg) (n : Nibble) (s : State) : Host.Outcome State Fault Refusal :=
  if blockOutOfRange s.i.toNat (spriteBytes s.ext n) then
    raise (.memAccessOutOfRange Config.memSize s.pc s.ir) s
  else
    let s0 := s.setReg vf 0#8
    let drawn := s0.drawSprite (s0.reg x).toNat (s0.reg y).toNat n
    advance (({ s0 with vram := drawn.1 } : State).setReg vf (flagByte drawn.2))

end Sys2Proof.Machine
end

