-- ==== Sys2Proof/Machine/KeysTimers.lean ====
section
/-! DEFINITION. The two timers (60_exceptions.md R214 to R217), and the key and timer instructions (46_keys_timers.md). -/

namespace Sys2Proof.Machine

/-! ## Timers -/

/-- `SetTimer(T, v)` (60_exceptions.md R214): a write of 0 stops the countdown, a write of another value over 0 arms it,
and any other write leaves the running countdown its cadence. -/
def Timer.set (t : Timer) (v : Byte) : Timer :=
  if v = 0#8 then { value := 0#8, phase := 0 }
  else if t.value = 0#8 then { value := v, phase := 0 }
  else { t with value := v }

/-- `TimerTick(T)` (60_exceptions.md R215): enabled iff `T > 0`, and then `T <- T - 1`. A timer at 0 has no tick. -/
def Timer.tick (t : Timer) : Timer :=
  if t.value = 0#8 then t
  else if t.value = 1#8 then { value := 0#8, phase := 0 }
  else { t with value := t.value - 1#8 }

/-- How many ticks of a countdown fall due by `phase` seconds after it was armed: they fall at `k/60` for
`k = 1, 2, 3, …` (60_exceptions.md R216). -/
def ticksDue (phase : Rat) : Nat := (phase * (Config.timerHz : Rat)).floor.toNat

/-- `d` seconds pass for a timer, with the ticks that fall due in them (60_exceptions.md R216, R217; log 7). -/
def Timer.elapse (t : Timer) (d : Rat) : Timer :=
  if t.value = 0#8 ∨ d < 0 then t
  else
    let due := ticksDue (t.phase + d) - ticksDue t.phase
    if t.value.toNat ≤ due then { value := 0#8, phase := 0 }
    else { value := BitVec.ofNat 8 (t.value.toNat - due), phase := t.phase + d }

/-! ## Instructions -/

/-- `SKP Vx` (46_keys_timers.md R190). -/
def execSkp (x : Reg) (s : State) : Host.Outcome State Fault Refusal := skipIf (s.keyDown (s.reg x).toNat) s

/-- `SKNP Vx` (46_keys_timers.md R191). -/
def execSknp (x : Reg) (s : State) : Host.Outcome State Fault Refusal := skipIf (!s.keyDown (s.reg x).toNat) s

/-- `LD Vx,DT` (46_keys_timers.md R192). -/
def execLdVxDt (x : Reg) (s : State) : Host.Outcome State Fault Refusal := advance (s.setReg x s.dt.value)

/-- `LD Vx,K`: with no key down the cycle completes and `PC` stays, so that the instruction is fetched again
(46_keys_timers.md R193). -/
def execLdVxK (x : Reg) (s : State) : Host.Outcome State Fault Refusal :=
  match s.leastKey with
  | some k => advance (s.setReg x (BitVec.ofNat 8 k))
  | none => .next s.audioStep

/-- `LD DT,Vx` (46_keys_timers.md R194). -/
def execLdDtVx (x : Reg) (s : State) : Host.Outcome State Fault Refusal := advance { s with dt := s.dt.set (s.reg x) }

/-- `LD ST,Vx` (46_keys_timers.md R195). -/
def execLdStVx (x : Reg) (s : State) : Host.Outcome State Fault Refusal := advance { s with st := s.st.set (s.reg x) }

end Sys2Proof.Machine
end

