-- ==== Sys2Proof/Machine/Agents.lean ====
section
/-! DEFINITION. The steps of the timer agents and of the host (60_exceptions.md R209): each is atomic and falls between
cycles (20_memory.md R52). -/

namespace Sys2Proof.Machine

/-- `TimerTick` of one timer: nothing but that timer changes (60_exceptions.md R215). -/
def State.timerTick (s : State) : TimerId → State
  | .delay => { s with dt := s.dt.tick }
  | .sound => { s with st := s.st.tick }

/-- `d` seconds pass for both timers, whose cadences are unrelated (60_exceptions.md R216). -/
def State.elapse (s : State) (d : Rat) : State := { s with dt := s.dt.elapse d, st := s.st.elapse d }

/-- `KEY[k] <- down`; a `k` above 15 is refused and changes nothing (60_exceptions.md R220). -/
def State.setKey (s : State) (k : Nat) (down : Bool) : State := { s with key := s.key.setIfInBounds k down }

/-- The cycles a `SchedTick` issues: `max(0, floor(CLOCK_HZ * elapsed))` (40_cycle_and_scheduler.md R88). -/
def burstLength (hz elapsed : Rat) : Nat := (hz * elapsed).floor.toNat

/-- The rate a `SchedTick` uses, and the free values it spends: none, unless `CLOCK_HZ` is unset (log 4). -/
def State.schedRate (s : State) : Rat × Nat :=
  match s.clockHz with
  | some hz => (hz, 0)
  | none => (Config.unsetClockHz s.draws, 1)

/-- `SchedTick(now)` (40_cycle_and_scheduler.md R88, R89): the first invocation executes no cycle; while `STATUS` is
`Faulted` none is executed either, and `LAST_T` is set all the same (R92). -/
def State.schedTick (s : State) (now : Rat) : State :=
  match s.lastT with
  | none => { s with lastT := some now, burst := 0 }
  | some before =>
    { s with
      lastT := some now
      draws := s.draws + s.schedRate.2
      burst := if s.status = .running then burstLength s.schedRate.1 (now - before) else 0 }

/-- Whether `SetClockHz` takes a rate: a finite number above 0 (40_cycle_and_scheduler.md R90). -/
def Rate.accepted : Rate → Bool
  | .finite hz => decide (0 < hz)
  | .notFinite => false

/-- `SetClockHz(hz)`: any other rate is rejected and `CLOCK_HZ` keeps its value (40_cycle_and_scheduler.md R90). -/
def State.setClockHz (s : State) : Rate → State
  | .finite hz => if (Rate.finite hz).accepted then { s with clockHz := some hz } else s
  | .notFinite => s

/-- Whether two font blocks have the sizes of 70_reset_and_hazards.md R242. -/
def fontsFit (std ext : List Byte) : Bool :=
  decide (std.length = Config.fontStdLen) && decide (ext.length = Config.fontExtLen)

/-- `ProvideFonts(std, ext)`: other sizes are rejected, and `MEM` is not touched (70_reset_and_hazards.md R242). -/
def State.provideFonts (s : State) (std ext : List Byte) : State :=
  if fontsFit std ext then { s with fonts := some { std := std, ext := ext } } else s

/-- `Reset`: the table of 10_state.md R33; `CLOCK_HZ`, `LAST_T` and `FONTS` stay (70_reset_and_hazards.md R240), and so do the
model's own fields (log 6). -/
def State.doReset (s : State) : State :=
  { State.reset with
    clockHz := s.clockHz
    lastT := s.lastT
    fonts := s.fonts
    config := s.config
    burst := s.burst
    draws := s.draws
    agenda := s.agenda }

/-- `PowerOn`: `Reset`, and `LAST_T`, `FONTS`, `CLOCK_HZ` as 70_reset_and_hazards.md R241 says; no burst is in progress (log 6). -/
def State.powerOn (s : State) : State :=
  { s.doReset with clockHz := none, lastT := none, fonts := none, burst := 0 }

/-- Main memory after the fonts and the program are copied into zeroed memory; bytes beyond 3584 are dropped
(70_reset_and_hazards.md R243, 10_state.md R34). -/
def loadedMemory (f : Fonts) (rom : List Byte) : Memory :=
  Store.writeList (w := 8)
    (Store.writeList (w := 8) (Store.writeList (w := 8) [] Config.fontStdBase f.std) Config.fontExtBase f.ext)
    Config.progBase (rom.take Config.progMax)

/-- `LoadProgram(rom)`: without fonts the machine stays in the reset state (70_reset_and_hazards.md R243, 60_exceptions.md R206). -/
def State.loadProgram (s : State) (rom : List Byte) : State :=
  match s.fonts with
  | none => s.doReset
  | some f => { s.doReset with mem := loadedMemory f rom }

/-- `SetMode(e)` as a host operation, which exists only when `MODE_OPS` is false (45_draw.md R172). DESIGN CHOICE (log 21): the
spec has the host call it at setup and does not say what a later call does; here it sets the mode at every boundary
between cycles, during a run, inside a burst and while `STATUS` is `Faulted` too. -/
def State.hostSetMode (s : State) (e : Bool) : State := if s.config.modeOps then s else s.setMode e

/-- The step of an agent other than the CPU. -/
def State.external (s : State) : Event → State
  | .cycle => s
  | .timerTick t => s.timerTick t
  | .elapse d => s.elapse d
  | .press k => s.setKey k true
  | .release k => s.setKey k false
  | .schedTick now => s.schedTick now
  | .setClockHz hz => s.setClockHz hz
  | .setMode e => s.hostSetMode e
  | .provideFonts std ext => s.provideFonts std ext
  | .loadProgram rom => s.loadProgram rom
  | .reset => s.doReset
  | .powerOn => s.powerOn

/-- The host operations that never fall inside a burst: a `SchedTick` returns only when its burst is over
(40_cycle_and_scheduler.md R91), and a new rate is used by the next one (R90). That a `SetMode` is none of them is log 21. -/
def Event.waitsForBurst : Event → Bool
  | .schedTick _ => true
  | .setClockHz _ => true
  | .cycle | .timerTick _ | .elapse _ | .press _ | .release _ | .setMode _ | .provideFonts _ _ | .loadProgram _
  | .reset | .powerOn => false

end Sys2Proof.Machine
end

