-- ==== Sys2Proof/Machine/Alu.lean ====
section
/-! DEFINITION. Register load, arithmetic, logic, shift and random (43_alu.md). Sources are read before any register
is written; none of these faults or writes `PC` itself. -/

namespace Sys2Proof.Machine

/-- `LD Vx,byte` (R130). -/
def execLdImm (x : Reg) (kk : Byte) (s : State) : Host.Outcome State Fault Refusal := advance (s.setReg x kk)

/-- `ADD Vx,byte`: no flag (R131). -/
def execAddImm (x : Reg) (kk : Byte) (s : State) : Host.Outcome State Fault Refusal := advance (s.setReg x (s.reg x + kk))

/-- `LD Vx,Vy` (R132). -/
def execLdReg (x y : Reg) (s : State) : Host.Outcome State Fault Refusal := advance (s.setReg x (s.reg y))

/-- `OR Vx,Vy`: no flag (R133, R144). -/
def execOr (x y : Reg) (s : State) : Host.Outcome State Fault Refusal := advance (s.setReg x (s.reg x ||| s.reg y))

/-- `AND Vx,Vy`: no flag (R134, R144). -/
def execAnd (x y : Reg) (s : State) : Host.Outcome State Fault Refusal := advance (s.setReg x (s.reg x &&& s.reg y))

/-- `XOR Vx,Vy`: no flag (R135, R144). -/
def execXor (x y : Reg) (s : State) : Host.Outcome State Fault Refusal := advance (s.setReg x (s.reg x ^^^ s.reg y))

/-- `ADD Vx,Vy` (R136). -/
def execAddReg (x y : Reg) (s : State) : Host.Outcome State Fault Refusal :=
  advance (s.setRegAndFlag x (s.reg x + s.reg y) (carryFlag (s.reg x) (s.reg y)))

/-- `SUB Vx,Vy` (R137). -/
def execSub (x y : Reg) (s : State) : Host.Outcome State Fault Refusal :=
  advance (s.setRegAndFlag x (s.reg x - s.reg y) (greaterFlag (s.reg x) (s.reg y)))

/-- `SHR Vx`; `Vy` is neither read nor written (R138). -/
def execShr (x _y : Reg) (s : State) : Host.Outcome State Fault Refusal :=
  advance (s.setRegAndFlag x (s.reg x >>> 1) (lowBitFlag (s.reg x)))

/-- `SUBN Vx,Vy` (R139). -/
def execSubn (x y : Reg) (s : State) : Host.Outcome State Fault Refusal :=
  advance (s.setRegAndFlag x (s.reg y - s.reg x) (greaterFlag (s.reg y) (s.reg x)))

/-- `SHL Vx`; `Vy` is neither read nor written (R140). -/
def execShl (x _y : Reg) (s : State) : Host.Outcome State Fault Refusal :=
  advance (s.setRegAndFlag x (s.reg x <<< 1) (highBitFlag (s.reg x)))

/-- `Rand8()`: the next free byte, and the state in which the draw is spent (R141; log 3). -/
def State.rand8 (s : State) : Byte × State := (Config.rand8 s.draws, { s with draws := s.draws + 1 })

/-- `RND Vx,byte` (R141). -/
def execRnd (x : Reg) (kk : Byte) (s : State) : Host.Outcome State Fault Refusal :=
  advance (s.rand8.2.setReg x (s.rand8.1 &&& kk))

end Sys2Proof.Machine
end

