-- ==== Sys2Proof/Machine/Control.lean ====
section
/-! DEFINITION. Control transfer (42_control_transfer.md). -/

namespace Sys2Proof.Machine

/-- `RET`: `PC` takes the popped entry, then the cycle adds 2 (R110). -/
def execRet (s : State) : Host.Outcome State Fault Refusal :=
  match s.pop with
  | .ok (r, t) => advance (t.setPc r.toNat)
  | .error f => raise f s

/-- `JP addr` (R111). -/
def execJp (nnn : Addr) (s : State) : Host.Outcome State Fault Refusal := jumpTo nnn.toNat s

/-- `CALL addr`: the address pushed is that of the `CALL` itself (R112, 10_state.md R16). -/
def execCall (nnn : Addr) (s : State) : Host.Outcome State Fault Refusal :=
  match s.push s.pc with
  | .ok t => jumpTo nnn.toNat t
  | .error f => raise f s

/-- `SE Vx,byte` (R113). -/
def execSeImm (x : Reg) (kk : Byte) (s : State) : Host.Outcome State Fault Refusal := skipIf (s.reg x == kk) s

/-- `SNE Vx,byte` (R114). -/
def execSneImm (x : Reg) (kk : Byte) (s : State) : Host.Outcome State Fault Refusal := skipIf (s.reg x != kk) s

/-- `SE Vx,Vy`; the low nibble has no effect (R115, 30_encoding.md R65). -/
def execSeReg (x y : Reg) (_n : Nibble) (s : State) : Host.Outcome State Fault Refusal := skipIf (s.reg x == s.reg y) s

/-- `SNE Vx,Vy`; the low nibble has no effect (R116, 30_encoding.md R65). -/
def execSneReg (x y : Reg) (_n : Nibble) (s : State) : Host.Outcome State Fault Refusal := skipIf (s.reg x != s.reg y) s

/-- `JP V0,addr`: the sum is over unbounded integers (R117). -/
def execJpV0 (nnn : Addr) (s : State) : Host.Outcome State Fault Refusal := jumpTo (nnn.toNat + (s.reg 0).toNat) s

end Sys2Proof.Machine
end

