-- ==== Sys2Proof/Machine/IndexMemory.lean ====
section
/-! DEFINITION. Address register and memory instructions (44_index_memory.md). None of the memory instructions
changes `I` (R156). -/

namespace Sys2Proof.Machine

/-- `LD I,addr` (R150). -/
def execLdI (nnn : Addr) (s : State) : Host.Outcome State Fault Refusal := advanceOr s (s.setI nnn.toNat)

/-- `ADD I,Vx`: the sum is over unbounded integers, and no flag is written (R151). -/
def execAddI (x : Reg) (s : State) : Host.Outcome State Fault Refusal := advanceOr s (s.setI (s.i.toNat + (s.reg x).toNat))

/-- `LD F,Vx`: the whole of `Vx` times 5 (R152). -/
def execLdF (x : Reg) (s : State) : Host.Outcome State Fault Refusal :=
  advanceOr s (s.setI ((s.reg x).toNat * Config.fontGlyphStride))

/-- `LD B,Vx` (R153). -/
def execLdB (x : Reg) (s : State) : Host.Outcome State Fault Refusal :=
  advanceOr s (s.writeBlock (s.dataAddr 0) (bcdDigits (s.reg x)))

/-- `LD [I],Vx` (R154). -/
def execLdStore (x : Reg) (s : State) : Host.Outcome State Fault Refusal :=
  advanceOr s (s.writeBlock (s.dataAddr 0) (s.regsUpTo x))

/-- `LD Vx,[I]` (R155). -/
def execLdLoad (x : Reg) (s : State) : Host.Outcome State Fault Refusal :=
  match s.readBlock (s.dataAddr 0) (x.val + 1) with
  | .ok bytes => advance { s with v := loadRegs s.v 0 bytes }
  | .error f => raise f s

end Sys2Proof.Machine
end

