-- ==== Sys2Proof/Machine/Cycle.lean ====
section
/-! DEFINITION. One cycle of the CPU (40_cycle_and_scheduler.md R80), and whose turn it is. -/

namespace Sys2Proof.Machine

/-- Whether the fetch would read past the end of memory (40_cycle_and_scheduler.md R81). -/
def State.fetchOutOfRange (s : State) : Bool := decide (Config.memSize ≤ s.pc.toNat + 1)

/-- The word at `PC`, big-endian (40_cycle_and_scheduler.md R81, 20_memory.md R46). -/
def State.fetchWord (s : State) : Word := wordOfBytes (s.byte s.pc.toNat) (s.byte (s.pc.toNat + 1))

/-- The cycle of a word that is no instruction: no state change but the cycle's own (41_system_display.md R103). The
report is an output (Machine/Ports.lean). -/
def decodeMiss (s : State) : Host.Outcome State Fault Refusal := advance s

/-- `Cycle` (40_cycle_and_scheduler.md R80): the fetch check, the fetch, decode, and the handler with the end of the cycle. -/
def cycle (s : State) : Host.Outcome State Fault Refusal :=
  if s.fetchOutOfRange then raise (.fetchOutOfRange s.pc) s
  else
    match decodeWord s.config.modeOps s.fetchWord with
    | .ok i => exec i { s with ir := s.fetchWord }
    | .error _ => decodeMiss { s with ir := s.fetchWord }

/-- Whose turn it is, and the turns that remain after it. -/
inductive Turn where
  | cpu (rest : List Event)
  | other (e : Event) (rest : List Event)
deriving DecidableEq, Repr

/-- Whose turn it is: the agenda says, and an empty agenda gives the CPU its turns (log 1). A `SchedTick` or
`SetClockHz` waits while a burst has cycles left to run (40_cycle_and_scheduler.md R90, R91; log 6). -/
def State.turn (s : State) : Turn :=
  match s.agenda with
  | [] => .cpu []
  | .cycle :: rest => .cpu rest
  | e :: rest =>
    if e.waitsForBurst && s.burst != 0 && s.status == .running then .cpu s.agenda else .other e rest

/-- The CPU's turn: a `Cycle` when `STATUS` is `Running`. When it is `Faulted` no cycle exists
(40_cycle_and_scheduler.md R92): the turn passes while other turns are to come, and else the machine stands still. -/
def cpuTurn (rest : List Event) (s : State) : Host.Outcome State Fault Refusal :=
  match s.status with
  | .running => cycle { s with agenda := rest, burst := s.burst - 1 }
  | .faulted f => if s.agenda = [] then .fault (.stopped f) else .next { s with agenda := rest }

/-- The turn of whichever agent has it. -/
def takeTurn (s : State) : Host.Outcome State Fault Refusal :=
  match s.turn with
  | .cpu rest => cpuTurn rest s
  | .other e rest => .next (({ s with agenda := rest } : State).external e)

/-- Where a fetch can read both its bytes: `PC`, or the entry point when `PC` is at the very top of memory. -/
def State.fetchAddr (s : State) : Nat := if s.fetchOutOfRange then Config.progBase else s.pc.toNat

/-- The state whose next turn is the CPU's, in which it runs the word given: the word is at `PC`, `STATUS` is `Running`
and the CPU's turn comes first (log 14). -/
def State.prepareFetch (s : State) (word : Word) : State :=
  { s.putWord s.fetchAddr (highByte word) (lowByte word) with
    pc := BitVec.ofNat 16 s.fetchAddr
    status := .running
    agenda := match s.agenda with
      | [] => []
      | e :: rest => .cycle :: e :: rest }

end Sys2Proof.Machine
end

