-- ==== Sys2Proof/Machine/Step.lean ====
section
/-! DEFINITION. One step of the machine: one turn of one agent (00_scope.md R8). -/

namespace Sys2Proof.Machine

/-- One atomic step (20_memory.md R52). -/
def step (s : State) : Host.Outcome State Fault Refusal := takeTurn s

/-- The state with an instruction stored where `step` fetches its next one; bits above `nbits` are 0. -/
def State.withFetchWord (s : State) (nbits w : Nat) : State := s.prepareFetch (BitVec.ofNat 16 (w % 2 ^ nbits))

end Sys2Proof.Machine
end

