-- ==== Sys2Proof/Machine/Ports.lean ====
section
/-! DEFINITION. The output ports (60_exceptions.md R219 to R223). Levels are functions of the state; events are those a
step emits, computed from the state before it, since no event is stored in the block (R222; log 13). -/

namespace Sys2Proof.Machine

/-- The numeric code of a cycle fault (60_exceptions.md R200). -/
def CycleFault.code : CycleFault → Nat
  | .fetchOutOfRange _ => 1
  | .indexOutOfRange _ _ _ => 2
  | .memAccessOutOfRange _ _ _ => 3
  | .stackOverflow _ _ => 4
  | .stackUnderflow _ _ => 5

/-- The configuration fault a load can report; a program that is no byte sequence cannot be written (60_exceptions.md R206). -/
inductive ConfigFault where
  | fontMissing
deriving DecidableEq, Repr

/-- The numeric code of a configuration fault (60_exceptions.md R200). -/
def ConfigFault.code : ConfigFault → Nat
  | .fontMissing => 16

/-- What a port carries in one step. -/
inductive Output where
  /-- `DecodeMiss(ir, pc)` on the diagnostic port (60_exceptions.md R207). -/
  | decodeMiss (ir pc : Word)
  /-- The fault report (60_exceptions.md R211, R222). -/
  | faultReport (f : CycleFault)
  /-- The strobe of the trace port, through which observers see the whole state (40_cycle_and_scheduler.md R86, 60 R223). -/
  | traceStrobe (seen : State)
  /-- The report to the caller of `LoadProgram` (60_exceptions.md R206). -/
  | configFault (f : ConfigFault)
  /-- The report that a host operation was refused (40_cycle_and_scheduler.md R90, 60 R220, 70 R242). -/
  | rejected (e : Event)
deriving DecidableEq, Repr

/-- The audio port (60_exceptions.md R219). -/
def State.audioPort (s : State) : Bool := s.audio

/-- The display port: the mode and the pixels of the active window, by rows (60_exceptions.md R221). -/
def State.displayPort (s : State) : Bool × List (List Bool) :=
  (s.ext, (List.range (activeHeight s.ext)).map fun y => (List.range (activeWidth s.ext)).map fun x => s.pixGet x y)

/-- Whether the word at `PC` is fetched and is no instruction. -/
def State.misses (s : State) : Bool :=
  !s.fetchOutOfRange && match decodeWord s.config.modeOps s.fetchWord with
    | .ok _ => false
    | .error _ => true

/-- What a `Cycle` emits: a completed cycle strobes the trace port once, a faulted one reports its fault and does not
strobe (40_cycle_and_scheduler.md R86, R87; 60_exceptions.md R207, R211). -/
def cycleOutputs (s : State) : List Output :=
  match cycle s with
  | .next t =>
    match t.status with
    | .faulted f => [.faultReport f]
    | .running => (if s.misses then [.decodeMiss s.fetchWord s.pc] else []) ++ [.traceStrobe t]
  | .fault _ => []
  | .refused _ => []

/-- What the step of another agent emits. -/
def State.externalOutputs (s : State) : Event → List Output
  | .press k => if k < 16 then [] else [.rejected (.press k)]
  | .release k => if k < 16 then [] else [.rejected (.release k)]
  | .setClockHz hz => if hz.accepted then [] else [.rejected (.setClockHz hz)]
  | .setMode e => if s.config.modeOps then [.rejected (.setMode e)] else []
  | .provideFonts std ext => if fontsFit std ext then [] else [.rejected (.provideFonts std ext)]
  | .loadProgram _ => if s.fonts = none then [.configFault .fontMissing] else []
  | .cycle | .timerTick _ | .elapse _ | .schedTick _ | .reset | .powerOn => []

/-- What the ports carry in the step from a state. -/
def outputs (s : State) : List Output :=
  match s.turn with
  | .cpu rest =>
    match s.status with
    | .running => cycleOutputs { s with agenda := rest, burst := s.burst - 1 }
    | .faulted _ => []
  | .other e _ => s.externalOutputs e

end Sys2Proof.Machine
end

