-- ==== Sys2Proof/Safety.lean ====
section
/-! DEFINITION. The terms claims use: the invariant of every reachable state, what an instruction may write, and where it
leaves `PC`. -/

namespace Sys2Proof.Machine

/-- A timer whose phase is sound: not negative, and 0 when no countdown exists (10_state.md R23; log 7). -/
def Timer.Sound (t : Timer) : Prop := 0 ≤ t.phase ∧ (t.value = 0#8 → t.phase = 0)

/-- What holds of every reachable state: the legal values of 10_state.md R10, and the canonical form of the stores. -/
structure State.Inv (s : State) : Prop where
  /-- `0 <= I <= 4095` (R14). -/
  index : s.i.toNat < Config.memSize
  /-- `0 <= PC <= 4095` (R16). -/
  counter : s.pc.toNat < Config.memSize
  /-- `0 <= SP <= STACK_DEPTH` (R20). -/
  depth : s.sp ≤ s.config.stackDepth
  /-- Every stack entry is 0 to 4095 (R10). -/
  entries : ∀ a, (Store.read s.stack a).toNat < Config.memSize
  stackForm : Store.wf s.config.stackDepth s.stack = true
  memForm : Memory.wf s.mem = true
  vramForm : Store.wf Config.vramSize s.vram = true
  delay : s.dt.Sound
  sound : s.st.Sound
  /-- A faulted machine has no burst (60_exceptions.md R211). -/
  burstRuns : s.burst ≠ 0 → s.status = .running
  /-- `CLOCK_HZ > 0` once it is set (R30). -/
  clock : ∀ hz, s.clockHz = some hz → 0 < hz
  /-- The font store holds 80 and 320 bytes once it is filled (R31). -/
  fontSizes : ∀ f, s.fonts = some f → f.std.length = Config.fontStdLen ∧ f.ext.length = Config.fontExtLen

/-- Whether the next turn is a `Cycle` of the CPU. -/
def State.cpuRuns (s : State) (rest : List Event) : Prop := s.turn = .cpu rest ∧ s.status = .running

/-- The state in which the CPU's turn runs: one turn and one cycle of the burst are spent. -/
def State.atTurn (s : State) (rest : List Event) : State := { s with agenda := rest, burst := s.burst - 1 }

end Sys2Proof.Machine

namespace Sys2Proof

/-- The general registers an instruction may write (10_state.md R12). -/
def Instr.mayWrite : Instr → Reg → Bool
  | .ldImm x _, r | .addImm x _, r | .ldReg x _, r | .orReg x _, r | .andReg x _, r | .xorReg x _, r
  | .rnd x _, r | .ldVxDt x, r | .ldVxK x, r => r == x
  | .addReg x _, r | .sub x _, r | .shr x _, r | .subn x _, r | .shl x _, r => r == x || r == Machine.vf
  | .drw _ _ _, r => r == Machine.vf
  | .ldLoad x, r => decide (r ≤ x)
  | .cls, _ | .ret, _ | .low, _ | .high, _ | .jp _, _ | .call _, _ | .seImm _ _, _ | .sneImm _ _, _
  | .seReg _ _ _, _ | .sneReg _ _ _, _ | .ldI _, _ | .jpV0 _, _ | .skp _, _ | .sknp _, _ | .ldDtVx _, _
  | .ldStVx _, _ | .addI _, _ | .ldF _, _ | .ldB _, _ | .ldStore _, _ => false

/-- The condition of a skip: `none` for an instruction that is no skip (42_control_transfer.md R113 to R116,
46_keys_timers.md R190, R191). -/
def Instr.skipCondition (s : Machine.State) : Instr → Option Bool
  | .seImm x kk => some (decide (s.reg x = kk))
  | .sneImm x kk => some (decide (s.reg x ≠ kk))
  | .seReg x y _ => some (decide (s.reg x = s.reg y))
  | .sneReg x y _ => some (decide (s.reg x ≠ s.reg y))
  | .skp x => some (s.keyDown (s.reg x).toNat)
  | .sknp x => some (!s.keyDown (s.reg x).toNat)
  | .cls | .ret | .low | .high | .jp _ | .call _ | .ldImm _ _ | .addImm _ _ | .ldReg _ _ | .orReg _ _ | .andReg _ _
  | .xorReg _ _ | .addReg _ _ | .sub _ _ | .shr _ _ | .subn _ _ | .shl _ _ | .ldI _ | .jpV0 _ | .rnd _ _ | .drw _ _ _
  | .ldVxDt _ | .ldVxK _ | .ldDtVx _ | .ldStVx _ | .addI _ | .ldF _ | .ldB _ | .ldStore _ | .ldLoad _ => none

/-- The target a cycle that does not fault presents to `PC`, from the state its handler starts in (10_state.md R18);
`PC` takes 512 in place of a target above 4095. -/
def Instr.target (s : Machine.State) (i : Instr) : Nat :=
  match i with
  | .jp nnn => nnn.toNat
  | .call nnn => nnn.toNat
  | .jpV0 nnn => nnn.toNat + (s.reg 0).toNat
  | .ret => (Store.read s.stack (s.sp - 1)).toNat + 2
  | .ldVxK _ => if (List.range 16).any s.keyDown = true then s.pc.toNat + 2 else s.pc.toNat
  | _ => if i.skipCondition s = some true then s.pc.toNat + 4 else s.pc.toNat + 2

/-- Which cycle fault an instruction can raise (60_exceptions.md R200, R210). -/
def Instr.mayRaise (i : Instr) : Machine.CycleFault → Bool
  | .fetchOutOfRange _ => false
  | .indexOutOfRange _ _ _ => i.mnemonic == "ADD_I"
  | .memAccessOutOfRange _ _ _ => ["DRW", "LD_B", "LD_store", "LD_load"].contains i.mnemonic
  | .stackOverflow _ _ => i.mnemonic == "CALL"
  | .stackUnderflow _ _ => i.mnemonic == "RET"

end Sys2Proof

namespace Sys2Proof.Machine

/-- Whether a sprite drawn at `(x, y)` from the memory of `s` has a lit bit on pixel `(px, py)`: bit `i` of row `r`, the
most significant leftmost, lies on `((x + i) mod W, (y + r) mod H)` (45_draw.md R173, R175, R176). -/
def State.spriteCovers (s : State) (x y : Nat) (n : Nibble) (px py : Nat) : Prop :=
  ∃ r i, r < (spriteShape s.ext n).1 ∧ i < (s.spriteRow s.ext n r).2 ∧
    (s.spriteRow s.ext n r).1.testBit ((s.spriteRow s.ext n r).2 - 1 - i) = true ∧
    px = (x + i) % activeWidth s.ext ∧ py = (y + r) % activeHeight s.ext

/-! ## What a completed cycle leaves -/

/-- `PC` was written with target `n`: it is `n`, or 512 when `n` is above 4095 (10_state.md R17). -/
def State.PcWritten (t : State) (n : Nat) : Prop := t.pc.toNat = if n ≤ 4095 then n else 512

/-- The cycle completed with `PC` written with target `n` and the audio step done (40_cycle_and_scheduler.md R85; D29). -/
def State.EndedAt (t : State) (n : Nat) : Prop := t.PcWritten n ∧ (t.audio = true ↔ 0 < t.st.value.toNat)

/-- Every general register outside a list is unchanged. -/
def KeepsRegs (s t : State) (written : List Reg) : Prop := ∀ r, r ∉ written → t.reg r = s.reg r

/-- Every byte of main memory is unchanged. -/
def KeepsMemory (s t : State) : Prop := ∀ a, t.byte a = s.byte a

/-- An instruction whose effect is on general registers: every component but `V`, `PC` and `AUDIO` is unchanged, and no byte
of memory is stored to. -/
def OnlyRegisters (s t : State) : Prop := t = { s with v := t.v, pc := t.pc, audio := t.audio } ∧ KeepsMemory s t

/-- An instruction with no effect but on `PC` and `AUDIO`. -/
def OnlyCounter (s t : State) : Prop := t = { s with pc := t.pc, audio := t.audio } ∧ KeepsMemory s t

/-- What the byte at an address reads as once a block has been stored at `I`: the block's byte inside it, and outside it what
the byte was (20_memory.md R54). -/
def State.byteWithStored (s : State) (block : List Byte) (a : Nat) : Byte :=
  if s.i.toNat ≤ a ∧ a < s.i.toNat + block.length then block.getD (a - s.i.toNat) 0#8 else s.byte a

/-- An instruction raises a fault: `STATUS` records it, the burst ends, and nothing else changes (60_exceptions.md R211). -/
def Raises (i : Instr) (s : State) (f : CycleFault) : Prop :=
  exec i s = .next { s with status := .faulted f, burst := 0 }

/-- The coordinate `DRW` reads from a register, `VF` having been cleared (45_draw.md R175). -/
def State.drawCoordinate (s : State) (x : Reg) : Nat := if x = vf then 0 else (s.reg x).toNat

/-- `DrawRow` for an 8-bit row as the source describes it on bytes (45_draw.md R174): the row's bits shifted right by the bit
offset go into one byte, and with a non-zero offset the rest into the next byte of the same row. -/
def drawRowBytes (ext : Bool) (x y : Nat) (bits : Byte) (vram : Store 8) : Store 8 × Bool :=
  let o := x % activeWidth ext % 8
  let c := x % activeWidth ext / 8
  let row := Config.vramRowBytes * (y % activeHeight ext)
  let first := row + c
  let second := row + (c + 1) % (activeWidth ext / 8)
  let old := Store.read vram first
  let vram1 := Store.write vram first (old ^^^ (bits >>> o))
  if o = 0 then (vram1, old &&& (bits >>> o) != 0#8)
  else
    let old2 := Store.read vram1 second
    (Store.write vram1 second (old2 ^^^ (bits <<< (8 - o))),
      old &&& (bits >>> o) != 0#8 || old2 &&& (bits <<< (8 - o)) != 0#8)

end Sys2Proof.Machine
end

