-- ==== Sys2Proof/Certificates/Slice0/Obligations.lean ====
section
/-! DEFINITION. The statements for the provers. A statement speaks of every state, every agenda and every value of the free
values; where it needs a reachable state it assumes `State.Inv`. "Log n" is notes/assumptions/n.md. -/

open Sys2Proof Sys2Proof.Machine

/-! ## Encoding (30_encoding.md) -/

/-- Decoding the bytes of an encoded instruction gives it back, whatever follows (R46, R60, R61, R66; the opcode numbers are
the spec's general knowledge, D1). -/
def Obligations.DecodeOfEncodedBytes : Prop :=
  ∀ (modeOps : Bool) (i : Instr) (rest : List Byte), i.wellFormed modeOps = true →
    decode modeOps (encodeBytes i ++ rest) = .ok (i, rest)

/-- A word that decodes is the word of its instruction, which the machine has: no bit is dropped or made up (R61, R66, D1). That
this holds of the words with ignored bits too (R65) is the model's choice to keep those bits in the instruction (log 11). -/
def Obligations.EncodeOfDecodedWord : Prop :=
  ∀ (modeOps : Bool) (w : Word) (i : Instr), decodeWord modeOps w = .ok i →
    encode i = w ∧ i.wellFormed modeOps = true

/-- The opcode map: a word is a row's instruction iff `w & mask = match`, for each of the 36 rows (R66, D1). -/
def Obligations.OpcodeMapDecidesInstruction : Prop :=
  ∀ (w : Word) (row : OpcodeRow), row ∈ opcodeMap →
    (w &&& row.mask = row.pattern ↔ ∃ i, decodeWord true w = .ok i ∧ i.mnemonic = row.mnemonic)

/-- The decode misses are exactly the words R67 lists in (a) to (d), with rows 3 and 4 missing when `MODE_OPS` is false. -/
def Obligations.DecodeMissesAreExactlyThoseListed : Prop :=
  ∀ (modeOps : Bool) (w : Word), decodeWord modeOps w = .error (.miss w) ↔
    (w.toNat / 4096 = 0 ∧ w.toNat ∉ [0x0E0, 0x0EE] ∧ (modeOps = true → w.toNat ∉ [0x0FE, 0x0FF])) ∨
    (w.toNat / 4096 = 0x8 ∧ w.toNat % 16 ∈ [0x8, 0x9, 0xA, 0xB, 0xC, 0xD, 0xF]) ∨
    (w.toNat / 4096 = 0xE ∧ w.toNat % 256 ∉ [0x9E, 0xA1]) ∨
    (w.toNat / 4096 = 0xF ∧ w.toNat % 256 ∉ [0x07, 0x0A, 0x15, 0x18, 0x1E, 0x29, 0x33, 0x55, 0x65])

/-- Words written out from the spec decode to the instructions they stand for: the worked encodings of R70. -/
def Obligations.WorkedEncodingsDecode : Prop :=
  decodeTableWord 16 0x00E0 = some .cls ∧
  decodeTableWord 16 0x2300 = some (.call 0x300#12) ∧
  decodeTableWord 16 0x631F = some (.ldImm 3 0x1F#8) ∧
  decodeTableWord 16 0x8AB4 = some (.addReg 0xA 0xB) ∧
  decodeTableWord 16 0xD125 = some (.drw 1 2 5#4) ∧
  decodeTableWord 16 0xFF55 = some (.ldStore 0xF) ∧
  decodeTableWord 16 0xE7A1 = some (.sknp 7) ∧
  decodeTableWord 16 0xBFFF = some (.jpV0 0xFFF#12) ∧
  decodeTableWord 16 0xF533 = some (.ldB 5) ∧
  decodeTableWord 16 0x5121 = some (.seReg 1 2 1#4) ∧
  decodeTableWord 16 0x8129 = none

/-! ## The step (40_cycle_and_scheduler.md, 60_exceptions.md) -/

/-- The CPU has the turn when the agenda is empty, when its head is the CPU's, and while a burst holds up the host operation at
its head (the agenda is the model's own, log 1 and log 6; the wait is R90 and R91). -/
def Obligations.CpuHasTheTurn : Prop :=
  ∀ (s : State), s.status = .running →
    (s.agenda = [] → s.cpuRuns []) ∧
    (∀ rest, s.agenda = .cycle :: rest → s.cpuRuns rest) ∧
    (∀ e rest, s.agenda = e :: rest → e.waitsForBurst = true → s.burst ≠ 0 → s.cpuRuns s.agenda)

/-- A step in which the CPU runs is the instruction its two bytes at `PC` decode to, in the state whose `IR` holds them and in
which the turn is spent. `exec` includes the auto-increment and the audio step (log 12). -/
def Obligations.StepRunsDecodedInstruction : Prop :=
  ∀ (s : State) (rest : List Event) (i : Instr), s.cpuRuns rest → s.pc.toNat ≤ 4094 →
    decode s.config.modeOps [s.byte s.pc.toNat, s.byte (s.pc.toNat + 1)] = .ok (i, []) →
    ∃ w : Word, w.toNat = (s.byte s.pc.toNat).toNat * 256 + (s.byte (s.pc.toNat + 1)).toNat ∧
      step s = exec i { s with agenda := rest, burst := s.burst - 1, ir := w }

/-- A decode miss: nothing changes but `IR` and the cycle's own `PC` and `AUDIO`, and it is reported (R103, R207). -/
def Obligations.DecodeMissIsReportedNoOperation : Prop :=
  ∀ (s : State) (rest : List Event) (e : DecodeError), s.cpuRuns rest → s.pc.toNat ≤ 4094 →
    decodeWord s.config.modeOps s.fetchWord = .error e →
    ∃ t, step s = .next t ∧ t.EndedAt (s.pc.toNat + 2) ∧ KeepsMemory s t ∧
      t = { s with agenda := rest, burst := s.burst - 1, ir := s.fetchWord, pc := t.pc, audio := t.audio } ∧
      outputs s = [.decodeMiss s.fetchWord s.pc, .traceStrobe t]

/-- A fetch at the top of memory faults before it reads anything, and `IR` stays (R81, R201; the fault's mechanism is D8, D41). -/
def Obligations.FetchAtTopFaults : Prop :=
  ∀ (s : State) (rest : List Event), s.cpuRuns rest → s.pc.toNat = 4095 →
    step s = .next { s with agenda := rest, burst := 0, status := .faulted (.fetchOutOfRange 4095#16) } ∧
    outputs s = [.faultReport (.fetchOutOfRange 4095#16)]

/-- While `STATUS` is `Faulted` no cycle executes: the CPU's turn passes, or the machine stands still when no agent has a
turn to come, and no port carries anything (R92, D8; the pass and the stop are log 2). -/
def Obligations.FaultedMachineRunsNoCycle : Prop :=
  ∀ (s : State) (rest : List Event) (f : CycleFault), s.turn = .cpu rest → s.status = .faulted f →
    (s.agenda = [] → step s = .fault (.stopped f)) ∧
    (s.agenda ≠ [] → step s = .next { s with agenda := rest }) ∧ outputs s = []

/-- Faults are precise: a cycle that faults leaves every component as it was, but for `STATUS`, the ended burst, and `IR`, which
holds the fetched word when the fault came from the handler (R87, R211; D8 and D10). -/
def Obligations.FaultsArePrecise : Prop :=
  ∀ (s t : State) (rest : List Event) (f : CycleFault), s.cpuRuns rest → step s = .next t → t.status = .faulted f →
    t = { s with agenda := rest, burst := 0, status := .faulted f,
                 ir := if s.pc.toNat < 4095 then s.fetchWord else s.ir }

/-- Which instruction can raise which fault (R200, R210). -/
def Obligations.OnlyListedInstructionsFault : Prop :=
  ∀ (i : Instr) (s t : State) (f : CycleFault), s.status = .running → exec i s = .next t → t.status = .faulted f →
    i.mayRaise f = true

/-- Only `Reset`, `PowerOn` and `LoadProgram` make a faulted machine run again (R29, R212; D8). -/
def Obligations.OnlyResetClearsFault : Prop :=
  ∀ (s t : State) (f : CycleFault), s.status = .faulted f → step s = .next t → t.status = .running →
    ∃ e rest, s.turn = .other e rest ∧ (e = .reset ∨ e = .powerOn ∨ ∃ rom, e = .loadProgram rom)

/-- `AUDIO` is `ST > 0` after every completed cycle, and no other step but a reset writes it: not a cycle that faults, not a
turn the CPU passes while `Faulted`, not another agent (R28, R85, R87, R92; D29). -/
def Obligations.AudioFollowsSoundTimer : Prop :=
  ∀ (s t : State), step s = .next t →
    (∀ rest, s.cpuRuns rest → t.status = .running → (t.audio = true ↔ 0 < t.st.value.toNat)) ∧
    (∀ rest, s.turn = .cpu rest → t.status ≠ .running → t.audio = s.audio) ∧
    (∀ e rest, s.turn = .other e rest → (t.audio = s.audio ∨ e = .reset ∨ e = .powerOn ∨ ∃ rom, e = .loadProgram rom))

/-- A completed cycle strobes the trace port exactly once, last, with the state after it; a faulted one reports its fault and
does not strobe (R86, R87, R223; D30). -/
def Obligations.TraceStrobesCompletedCycles : Prop :=
  ∀ (s t : State) (rest : List Event), s.cpuRuns rest → step s = .next t →
    (t.status = .running → ∃ before, outputs s = before ++ [.traceStrobe t] ∧ ∀ u, Output.traceStrobe u ∉ before) ∧
    (∀ f, t.status = .faulted f → outputs s = [.faultReport f])

/-- A burst counts one for each cycle, and a fault ends it (R88, R91; D24). -/
def Obligations.BurstCountsCycles : Prop :=
  ∀ (s t : State) (rest : List Event), s.cpuRuns rest → step s = .next t →
    (t.status = .running → t.burst = s.burst - 1) ∧ (t.status ≠ .running → t.burst = 0)

/-! ## Invariants -/

/-- The state after reset meets the invariant. -/
def Obligations.ResetMeetsInvariant : Prop := State.reset.Inv

/-- Every step of every agent keeps the invariant: `PC`, `I`, `SP` and the stack entries stay legal, the stores stay canonical,
the timers sound (R10, R14, R16, R20). -/
def Obligations.StepKeepsInvariant : Prop :=
  ∀ (s t : State), s.Inv → step s = .next t → t.Inv

/-! ## Frames over the whole instruction set (10_state.md R10, R12) -/

/-- An instruction writes no general register but those R12 lists for it. -/
def Obligations.RegistersWrittenOnlyAsListed : Prop :=
  ∀ (i : Instr) (s t : State) (r : Reg), exec i s = .next t → i.mayWrite r = false → t.reg r = s.reg r

/-- Each other component is written only by the instructions R10 lists for it; `KEY`, `IR`, `CLOCK_HZ`, `LAST_T`, `FONTS` and the
parameters by none, and bytes of memory only by `LD B,Vx` and `LD [I],Vx`. -/
def Obligations.ComponentsWrittenOnlyAsListed : Prop :=
  ∀ (i : Instr) (s t : State), exec i s = .next t →
    (t.i ≠ s.i → i.mnemonic ∈ ["LD_I", "ADD_I", "LD_F"]) ∧
    (t.sp ≠ s.sp → i.mnemonic ∈ ["CALL", "RET"]) ∧
    (t.stack ≠ s.stack → i.mnemonic = "CALL") ∧
    (t.dt ≠ s.dt → i.mnemonic = "LD_DT_Vx") ∧
    (t.st ≠ s.st → i.mnemonic = "LD_ST_Vx") ∧
    (t.vram ≠ s.vram → i.mnemonic ∈ ["CLS", "DRW"]) ∧
    (t.ext ≠ s.ext → i.mnemonic ∈ ["LOW", "HIGH"]) ∧
    ((t.mem ≠ s.mem ∨ ∃ a, t.byte a ≠ s.byte a) → i.mnemonic ∈ ["LD_B", "LD_store"]) ∧
    (t.draws ≠ s.draws → i.mnemonic = "RND") ∧
    t.key = s.key ∧ t.ir = s.ir ∧ t.clockHz = s.clockHz ∧ t.lastT = s.lastT ∧ t.fonts = s.fonts ∧
    t.config = s.config ∧ t.agenda = s.agenda

/-- `PC` after each instruction that does not fault: the table of R18 (its `RET` row is D7), for a completed cycle's `PC` of at
most 4094. -/
def Obligations.ProgramCounterFollowsTable : Prop :=
  ∀ (i : Instr) (s t : State), s.Inv → s.status = .running → s.pc.toNat ≤ 4094 → exec i s = .next t →
    t.status = .running →
    t.pc.toNat = if i.target s ≤ 4095 then i.target s else 512

/-- What no instruction brings into a register: the framebuffer reaches nothing but the framebuffer and the `VF` of `DRW` (R25),
and `ST` nothing but itself and `AUDIO` (R22). -/
def Obligations.FramebufferAndSoundTimerAreUnread : Prop :=
  ∀ (i : Instr) (s t u : State) (vram : Store 8) (st : Timer), exec i s = .next t →
    exec i { s with vram := vram, st := st } = .next u →
    u = { t with v := u.v, vram := u.vram, st := u.st, audio := u.audio } ∧
    (∀ r, i.mnemonic = "DRW" ∧ r = vf ∨ u.reg r = t.reg r)

/-! ## Load, arithmetic, logic, shift, random (43_alu.md) -/

/-- `LD Vx,byte` and `ADD Vx,byte` (R130, R131); `AUDIO`, which the cycle writes, is in `AudioFollowsSoundTimer`. -/
def Obligations.ImmediateLoadAndAdd : Prop :=
  ∀ (x : Reg) (kk : Byte) (s : State),
    (∃ t, exec (.ldImm x kk) s = .next t ∧ t.reg x = kk ∧
      KeepsRegs s t [x] ∧ OnlyRegisters s t ∧ t.PcWritten (s.pc.toNat + 2)) ∧
    (∃ t, exec (.addImm x kk) s = .next t ∧ (t.reg x).toNat = ((s.reg x).toNat + kk.toNat) % 256 ∧
      KeepsRegs s t [x] ∧ OnlyRegisters s t ∧ t.PcWritten (s.pc.toNat + 2))

/-- `LD Vx,Vy`, `OR`, `AND`, `XOR`, bit by bit; `VF` is written only as `Vx` (R132 to R135). -/
def Obligations.CopyAndBitwise : Prop :=
  ∀ (x y : Reg) (s : State),
    (∃ t, exec (.ldReg x y) s = .next t ∧ t.reg x = s.reg y ∧
      KeepsRegs s t [x] ∧ OnlyRegisters s t ∧ t.EndedAt (s.pc.toNat + 2)) ∧
    (∃ t, exec (.orReg x y) s = .next t ∧
      (∀ k, (t.reg x).getLsbD k = ((s.reg x).getLsbD k || (s.reg y).getLsbD k)) ∧
      KeepsRegs s t [x] ∧ OnlyRegisters s t ∧ t.EndedAt (s.pc.toNat + 2)) ∧
    (∃ t, exec (.andReg x y) s = .next t ∧
      (∀ k, (t.reg x).getLsbD k = ((s.reg x).getLsbD k && (s.reg y).getLsbD k)) ∧
      KeepsRegs s t [x] ∧ OnlyRegisters s t ∧ t.EndedAt (s.pc.toNat + 2)) ∧
    (∃ t, exec (.xorReg x y) s = .next t ∧
      (∀ k, (t.reg x).getLsbD k = ((s.reg x).getLsbD k ^^ (s.reg y).getLsbD k)) ∧
      KeepsRegs s t [x] ∧ OnlyRegisters s t ∧ t.EndedAt (s.pc.toNat + 2))

/-- `ADD Vx,Vy` (R136): the sum modulo 256, then the carry to `VF`, which with `x = F` is what stays (R143; D11). -/
def Obligations.AddWithCarryOut : Prop :=
  ∀ (x y : Reg) (s : State), ∃ t, exec (.addReg x y) s = .next t ∧
    (x ≠ vf → (t.reg x).toNat = ((s.reg x).toNat + (s.reg y).toNat) % 256) ∧
    (t.reg vf).toNat = (if (s.reg x).toNat + (s.reg y).toNat > 255 then 1 else 0) ∧
    KeepsRegs s t [x, vf] ∧ OnlyRegisters s t ∧ t.EndedAt (s.pc.toNat + 2)

/-- `SUB` and `SUBN` (R137, R139): the difference modulo 256, then the strict comparison to `VF` (the order is D11, the 0 is D34). -/
def Obligations.SubtractWithGreaterFlag : Prop :=
  ∀ (x y : Reg) (s : State),
    (∃ t, exec (.sub x y) s = .next t ∧
      (x ≠ vf → ((t.reg x).toNat : Int) = ((s.reg x).toNat - (s.reg y).toNat : Int) % 256) ∧
      (t.reg vf).toNat = (if (s.reg x).toNat > (s.reg y).toNat then 1 else 0) ∧
      KeepsRegs s t [x, vf] ∧ OnlyRegisters s t ∧ t.EndedAt (s.pc.toNat + 2)) ∧
    (∃ t, exec (.subn x y) s = .next t ∧
      (x ≠ vf → ((t.reg x).toNat : Int) = ((s.reg y).toNat - (s.reg x).toNat : Int) % 256) ∧
      (t.reg vf).toNat = (if (s.reg y).toNat > (s.reg x).toNat then 1 else 0) ∧
      KeepsRegs s t [x, vf] ∧ OnlyRegisters s t ∧ t.EndedAt (s.pc.toNat + 2))

/-- `SHR` and `SHL` (R138, R140): one bit, logical, then the bit shifted out to `VF` as 0 or 1 (the order is D11). -/
def Obligations.ShiftsByOne : Prop :=
  ∀ (x y : Reg) (s : State),
    (∃ t, exec (.shr x y) s = .next t ∧
      (x ≠ vf → (t.reg x).toNat = (s.reg x).toNat / 2) ∧ (t.reg vf).toNat = (s.reg x).toNat % 2 ∧
      KeepsRegs s t [x, vf] ∧ OnlyRegisters s t ∧ t.EndedAt (s.pc.toNat + 2)) ∧
    (∃ t, exec (.shl x y) s = .next t ∧
      (x ≠ vf → (t.reg x).toNat = (s.reg x).toNat * 2 % 256) ∧ (t.reg vf).toNat = (s.reg x).toNat / 128 ∧
      KeepsRegs s t [x, vf] ∧ OnlyRegisters s t ∧ t.EndedAt (s.pc.toNat + 2))

/-- `RND` (R141, D31): the next free byte masked by `kk`, for every value of that byte; each draw is spent once (log 3). -/
def Obligations.RandomIsMaskedFreshByte : Prop :=
  ∀ (x : Reg) (kk : Byte) (s : State), ∃ t, exec (.rnd x kk) s = .next t ∧
    t.reg x = Config.rand8 s.draws &&& kk ∧ t.reg x &&& ~~~kk = 0#8 ∧
    KeepsRegs s t [x] ∧ KeepsMemory s t ∧
    t = { s with v := t.v, pc := t.pc, audio := t.audio, draws := s.draws + 1 } ∧ t.EndedAt (s.pc.toNat + 2)

/-! ## Control transfer (42_control_transfer.md) -/

/-- `JP addr` and `JP V0,addr` (R111, R117): the sum is over unbounded integers, and above 4095 it gives 512; `AUDIO`
is in `AudioFollowsSoundTimer`. -/
def Obligations.JumpsReachTarget : Prop :=
  ∀ (nnn : Addr) (s : State),
    (∃ t, exec (.jp nnn) s = .next t ∧ t.pc.toNat = nnn.toNat ∧ OnlyCounter s t) ∧
    (∃ t, exec (.jpV0 nnn) s = .next t ∧ OnlyCounter s t ∧ t.PcWritten (nnn.toNat + (s.reg 0).toNat))

/-- `SE` and `SNE`, with a byte and with a register: `PC + 4` when the condition holds and else `PC + 2`, for every low nibble
(R113 to R116, R118). -/
def Obligations.ComparingSkips : Prop :=
  ∀ (x y : Reg) (kk : Byte) (n : Nibble) (s : State),
    (∃ t, exec (.seImm x kk) s = .next t ∧ OnlyCounter s t ∧
      t.EndedAt (if s.reg x = kk then s.pc.toNat + 4 else s.pc.toNat + 2)) ∧
    (∃ t, exec (.sneImm x kk) s = .next t ∧ OnlyCounter s t ∧
      t.EndedAt (if s.reg x ≠ kk then s.pc.toNat + 4 else s.pc.toNat + 2)) ∧
    (∃ t, exec (.seReg x y n) s = .next t ∧ OnlyCounter s t ∧
      t.EndedAt (if s.reg x = s.reg y then s.pc.toNat + 4 else s.pc.toNat + 2)) ∧
    (∃ t, exec (.sneReg x y n) s = .next t ∧ OnlyCounter s t ∧
      t.EndedAt (if s.reg x ≠ s.reg y then s.pc.toNat + 4 else s.pc.toNat + 2))

/-- `CALL` with a free slot pushes its own address and jumps; with none it raises `StackOverflow` and changes nothing
(R112, R204; D5, D7). -/
def Obligations.CallPushesOwnAddress : Prop :=
  ∀ (nnn : Addr) (s : State),
    (s.sp < s.config.stackDepth → ∃ t, exec (.call nnn) s = .next t ∧
      Store.read t.stack s.sp = s.pc ∧ (∀ a, a ≠ s.sp → Store.read t.stack a = Store.read s.stack a) ∧
      t.sp = s.sp + 1 ∧ t.pc.toNat = nnn.toNat ∧ KeepsMemory s t ∧
      t = { s with stack := t.stack, sp := t.sp, pc := t.pc, audio := t.audio } ∧ t.EndedAt nnn.toNat) ∧
    (s.config.stackDepth ≤ s.sp → Raises (.call nnn) s (.stackOverflow s.pc s.ir))

/-- `RET` with an entry pops it, and `PC` is 2 past it; with none it raises `StackUnderflow` and changes nothing (R110, R205;
D6, D7). The stack's entries keep their values (R21). -/
def Obligations.ReturnPopsAndAdvances : Prop :=
  ∀ (s : State), s.Inv →
    (0 < s.sp → ∃ t, exec .ret s = .next t ∧ t.sp = s.sp - 1 ∧ KeepsMemory s t ∧
      t = { s with sp := t.sp, pc := t.pc, audio := t.audio } ∧
      t.EndedAt ((Store.read s.stack (s.sp - 1)).toNat + 2)) ∧
    (s.sp = 0 → Raises .ret s (.stackUnderflow s.pc s.ir))

/-- A `RET` in any state that still has the stack a `CALL` left resumes after that `CALL`, at the depth before it (the source's
property T4; R110, R112). -/
def Obligations.ReturnResumesAfterCall : Prop :=
  ∀ (nnn : Addr) (s t m : State), s.Inv → s.sp < s.config.stackDepth → exec (.call nnn) s = .next t →
    m.stack = t.stack → m.sp = t.sp →
    ∃ u, exec .ret m = .next u ∧ u.sp = s.sp ∧ u.EndedAt (s.pc.toNat + 2)

/-- A `JP` to its own address is a fixed point of the CPU's step but for `AUDIO`, with `IR` holding its word (R94). The turn and the
burst that the step spends are the model's own (log 1, log 6). -/
def Obligations.SelfJumpIsFixedPoint : Prop :=
  ∀ (s : State) (rest : List Event) (nnn : Addr), s.cpuRuns rest → s.pc.toNat = nnn.toNat → s.pc.toNat ≤ 4094 →
    decodeWord s.config.modeOps s.fetchWord = .ok (.jp nnn) →
    ∃ t, step s = .next t ∧
      t = { s with ir := s.fetchWord, audio := t.audio, agenda := rest, burst := s.burst - 1 } ∧
      (t.audio = true ↔ 0 < s.st.value.toNat)

/-! ## Address register and memory (44_index_memory.md) -/

/-- `LD I,addr` (R150); `AUDIO` is in `AudioFollowsSoundTimer`. -/
def Obligations.LoadIndex : Prop :=
  ∀ (nnn : Addr) (s : State), ∃ t, exec (.ldI nnn) s = .next t ∧ t.i.toNat = nnn.toNat ∧ KeepsMemory s t ∧
    t = { s with i := t.i, pc := t.pc, audio := t.audio } ∧ t.PcWritten (s.pc.toNat + 2)

/-- `ADD I,Vx`: the unbounded sum when it is at most 4095, and else `IndexOutOfRange` with `I` as it was; `VF` is not touched
(R151, R202; D37). -/
def Obligations.AddToIndex : Prop :=
  ∀ (x : Reg) (s : State),
    (s.i.toNat + (s.reg x).toNat ≤ 4095 → ∃ t, exec (.addI x) s = .next t ∧
      t.i.toNat = s.i.toNat + (s.reg x).toNat ∧ KeepsMemory s t ∧
      t = { s with i := t.i, pc := t.pc, audio := t.audio } ∧ t.EndedAt (s.pc.toNat + 2)) ∧
    (4095 < s.i.toNat + (s.reg x).toNat →
      Raises (.addI x) s (.indexOutOfRange (s.i.toNat + (s.reg x).toNat) s.pc s.ir))

/-- `LD F,Vx`: five times the whole of `Vx`, which is always in range (R152; D33). -/
def Obligations.PointAtGlyph : Prop :=
  ∀ (x : Reg) (s : State), ∃ t, exec (.ldF x) s = .next t ∧ t.i.toNat = (s.reg x).toNat * 5 ∧ KeepsMemory s t ∧
    t = { s with i := t.i, pc := t.pc, audio := t.audio } ∧ t.EndedAt (s.pc.toNat + 2)

/-- `LD B,Vx`: hundreds, tens, ones at `I`, `I + 1`, `I + 2`, and no other byte; past the end of memory nothing is written
(R153, R156, R203; D10). -/
def Obligations.StoreDecimalDigits : Prop :=
  ∀ (x : Reg) (s : State),
    (s.dataAddr 0 + 2 ≤ 4095 → ∃ t, exec (.ldB x) s = .next t ∧
      (t.byte (s.dataAddr 0)).toNat = (s.reg x).toNat / 100 ∧
      (t.byte (s.dataAddr 0 + 1)).toNat = (s.reg x).toNat / 10 % 10 ∧
      (t.byte (s.dataAddr 0 + 2)).toNat = (s.reg x).toNat % 10 ∧
      (∀ a, a < s.dataAddr 0 ∨ s.dataAddr 0 + 2 < a → t.byte a = s.byte a) ∧
      t = { s with mem := t.mem, pc := t.pc, audio := t.audio } ∧ t.EndedAt (s.pc.toNat + 2)) ∧
    (4095 < s.dataAddr 0 + 2 → Raises (.ldB x) s (.memAccessOutOfRange 4096 s.pc s.ir))

/-- `LD [I],Vx`: `V0` to `Vx` at `I` to `I + x`, and no other byte; past the end of memory nothing is written
(R154, R156, R203; D10). -/
def Obligations.StoreRegisters : Prop :=
  ∀ (x : Reg) (s : State),
    (s.dataAddr 0 + x.val ≤ 4095 → ∃ t, exec (.ldStore x) s = .next t ∧
      (∀ j : Reg, j ≤ x → t.byte (s.dataAddr 0 + j.val) = s.reg j) ∧
      (∀ a, a < s.dataAddr 0 ∨ s.dataAddr 0 + x.val < a → t.byte a = s.byte a) ∧
      t = { s with mem := t.mem, pc := t.pc, audio := t.audio } ∧ t.EndedAt (s.pc.toNat + 2)) ∧
    (4095 < s.dataAddr 0 + x.val → Raises (.ldStore x) s (.memAccessOutOfRange 4096 s.pc s.ir))

/-- `LD Vx,[I]`: `V0` to `Vx` from `I` to `I + x`, no register above `Vx`, no byte of memory; past the end of memory nothing is
read (R155, R156, R203; D10). -/
def Obligations.LoadRegisters : Prop :=
  ∀ (x : Reg) (s : State),
    (s.dataAddr 0 + x.val ≤ 4095 → ∃ t, exec (.ldLoad x) s = .next t ∧
      (∀ j : Reg, t.reg j = if j ≤ x then s.byte (s.dataAddr 0 + j.val) else s.reg j) ∧
      OnlyRegisters s t ∧ t.EndedAt (s.pc.toNat + 2)) ∧
    (4095 < s.dataAddr 0 + x.val → Raises (.ldLoad x) s (.memAccessOutOfRange 4096 s.pc s.ir))

/-- `LD [I],Vx` and later `LD Vx,[I]`, with `I` and the stored bytes kept in between, restores `V0` to `Vx` and leaves the
registers above as they then are (the source's property T7; R154, R155, R156). -/
def Obligations.StoreThenLoadRestoresRegisters : Prop :=
  ∀ (x : Reg) (s t m : State), s.i.toNat + x.val ≤ 4095 → exec (.ldStore x) s = .next t → m.i = t.i →
    (∀ a, s.i.toNat ≤ a → a ≤ s.i.toNat + x.val → m.byte a = t.byte a) →
    ∃ u, exec (.ldLoad x) m = .next u ∧ ∀ j : Reg, u.reg j = if j ≤ x then s.reg j else m.reg j

/-- A store by `LD B,Vx` or `LD [I],Vx` is seen by the very next fetch of any address, inside the block or not: in every
state whose memory is the one the store left, the next cycle's `IR` holds the stored bytes inside the block and the old ones
outside it (R54; which bytes are stored is stated by `StoreDecimalDigits` and `StoreRegisters`). -/
def Obligations.StoreIsSeenByNextFetch : Prop :=
  ∀ (x : Reg) (s t m u : State) (rest : List Event), (∀ a, m.byte a = t.byte a) → m.cpuRuns rest → m.pc.toNat ≤ 4094 →
    step m = .next u →
    (s.i.toNat + 2 ≤ 4095 → exec (.ldB x) s = .next t →
      u.ir.toNat = (s.byteWithStored (bcdDigits (s.reg x)) m.pc.toNat).toNat * 256 +
        (s.byteWithStored (bcdDigits (s.reg x)) (m.pc.toNat + 1)).toNat) ∧
    (s.i.toNat + x.val ≤ 4095 → exec (.ldStore x) s = .next t →
      u.ir.toNat = (s.byteWithStored (s.regsUpTo x) m.pc.toNat).toNat * 256 +
        (s.byteWithStored (s.regsUpTo x) (m.pc.toNat + 1)).toNat)

/-! ## Display (41_system_display.md, 45_draw.md) -/

/-- `CLS`: every byte of the framebuffer is 0 in either mode, so every pixel reads unlit; nothing else changes (R100; D16). -/
def Obligations.ClearScreen : Prop :=
  ∀ (s : State), ∃ t, exec .cls s = .next t ∧
    (∀ a, Store.read t.vram a = 0#8) ∧ (∀ x y, t.pixGet x y = false) ∧ KeepsMemory s t ∧
    t = { s with vram := t.vram, pc := t.pc, audio := t.audio } ∧ t.EndedAt (s.pc.toNat + 2)

/-- `LOW` and `HIGH` set the mode and leave the framebuffer alone (R101, R102, R172; D2, D3). -/
def Obligations.ModeSwitches : Prop :=
  ∀ (s : State),
    (∃ t, exec .low s = .next t ∧ t = { s with ext := false, pc := t.pc, audio := t.audio } ∧ KeepsMemory s t ∧
      t.EndedAt (s.pc.toNat + 2)) ∧
    (∃ t, exec .high s = .next t ∧ t = { s with ext := true, pc := t.pc, audio := t.audio } ∧ KeepsMemory s t ∧
      t.EndedAt (s.pc.toNat + 2))

/-- `DRW` whose sprite lies in memory: a pixel of the active window is toggled iff the sprite covers it, no other pixel of the
bitmap changes, and `VF` is 1 iff a covered pixel was lit; the coordinates come from registers after `VF` is cleared
(R173, R175 to R178; D10, D12, D15, D36). -/
def Obligations.DrawTogglesCoveredPixels : Prop :=
  ∀ (x y : Reg) (n : Nibble) (s : State), spriteBytes s.ext n = 0 ∨ s.i.toNat + spriteBytes s.ext n ≤ 4096 →
    ∃ t, exec (.drw x y n) s = .next t ∧
      (∀ px py, px < activeWidth s.ext → py < activeHeight s.ext →
        (t.pixGet px py ≠ s.pixGet px py ↔ s.spriteCovers (s.drawCoordinate x) (s.drawCoordinate y) n px py)) ∧
      (∀ px py, px < 128 → py < 64 → ¬(px < activeWidth s.ext ∧ py < activeHeight s.ext) →
        pixelLit t.vram px py = pixelLit s.vram px py) ∧
      (t.reg vf = 1#8 ↔ ∃ px py, s.spriteCovers (s.drawCoordinate x) (s.drawCoordinate y) n px py ∧
        s.pixGet px py = true) ∧
      (t.reg vf = 1#8 ∨ t.reg vf = 0#8) ∧
      KeepsRegs s t [vf] ∧ KeepsMemory s t ∧
      t = { s with v := t.v, vram := t.vram, pc := t.pc, audio := t.audio } ∧ t.EndedAt (s.pc.toNat + 2)

/-- `DRW` whose sprite would pass the end of memory raises `MemAccessOutOfRange` and changes nothing, not even `VF`
(R175, R203; D10). -/
def Obligations.DrawOutOfMemoryFaults : Prop :=
  ∀ (x y : Reg) (n : Nibble) (s : State), spriteBytes s.ext n ≠ 0 → 4096 < s.i.toNat + spriteBytes s.ext n →
    Raises (.drw x y n) s (.memAccessOutOfRange 4096 s.pc s.ir)

/-- The sizes of a sprite: the table of R177 (D36). -/
def Obligations.SpriteSizesFollowTable : Prop :=
  ∀ (n : Nibble), spriteShape false n = (n.toNat, 1) ∧ (n ≠ 0#4 → spriteShape true n = (n.toNat, 1)) ∧
    spriteShape true 0#4 = (16, 2) ∧ spriteBytes true 0#4 = 32 ∧ spriteBytes false 0#4 = 0

/-- Drawing the same sprite twice at the same place restores the framebuffer (R175 corner case f, its first half). -/
def Obligations.DrawTwiceRestoresFramebuffer : Prop :=
  ∀ (x y : Reg) (n : Nibble) (s t u : State), s.Inv → spriteBytes s.ext n = 0 ∨ s.i.toNat + spriteBytes s.ext n ≤ 4096 →
    exec (.drw x y n) s = .next t → exec (.drw x y n) t = .next u → u.vram = s.vram

/-- The second of two equal draws reports a collision iff the sprite covers a pixel that was unlit before the first (R175, R178).
R175's corner case (f) says "iff the sprite has any lit bit", which is this only where nothing under the sprite was lit (NOTES.md). -/
def Obligations.SecondDrawCollidesIffFirstLit : Prop :=
  ∀ (x y : Reg) (n : Nibble) (s t u : State), spriteBytes s.ext n = 0 ∨ s.i.toNat + spriteBytes s.ext n ≤ 4096 →
    exec (.drw x y n) s = .next t → exec (.drw x y n) t = .next u →
    (u.reg vf = 1#8 ↔
      ∃ px py, s.spriteCovers (s.drawCoordinate x) (s.drawCoordinate y) n px py ∧ s.pixGet px py = false)

/-- For an 8-bit row the pixel definition of `DrawRow` and the source's description on bytes are the same function (R174). -/
def Obligations.DrawRowEqualsByteDescription : Prop :=
  ∀ (ext : Bool) (x y : Nat) (bits : Byte) (vram : Store 8),
    (∀ a, Store.read (drawRow ext x y bits.toNat 8 (vram, false)).1 a =
      Store.read (drawRowBytes ext x y bits vram).1 a) ∧
    (drawRow ext x y bits.toNat 8 (vram, false)).2 = (drawRowBytes ext x y bits vram).2

/-! ## Keys and timers (46_keys_timers.md, 60_exceptions.md) -/

/-- `SKP` and `SKNP`: the key the register names is down, and a key above 15 never is (R190, R191, R196; D13). -/
def Obligations.KeySkips : Prop :=
  ∀ (x : Reg) (s : State),
    (∃ t, exec (.skp x) s = .next t ∧ OnlyCounter s t ∧
      t.EndedAt (if ∃ h : (s.reg x).toNat < 16, s.key[(s.reg x).toNat] = true then s.pc.toNat + 4 else s.pc.toNat + 2)) ∧
    (∃ t, exec (.sknp x) s = .next t ∧ OnlyCounter s t ∧
      t.EndedAt (if ∃ h : (s.reg x).toNat < 16, s.key[(s.reg x).toNat] = true then s.pc.toNat + 2 else s.pc.toNat + 4))

/-- `LD Vx,DT` (R192); `AUDIO` is in `AudioFollowsSoundTimer`. -/
def Obligations.ReadDelayTimer : Prop :=
  ∀ (x : Reg) (s : State), ∃ t, exec (.ldVxDt x) s = .next t ∧ t.reg x = s.dt.value ∧
    KeepsRegs s t [x] ∧ OnlyRegisters s t ∧ t.PcWritten (s.pc.toNat + 2)

/-- `LD Vx,K`: with a key down the least of them goes to `Vx` and `PC` advances; with none the cycle completes, `PC` stays and no
register changes (R193; D35). -/
def Obligations.WaitForKey : Prop :=
  ∀ (x : Reg) (s : State),
    (∀ k, (h : k < 16) → s.key[k] = true → (∀ j, (hj : j < k) → s.key[j] = false) →
      ∃ t, exec (.ldVxK x) s = .next t ∧ (t.reg x).toNat = k ∧ KeepsRegs s t [x] ∧ OnlyRegisters s t ∧
        t.EndedAt (s.pc.toNat + 2)) ∧
    ((∀ k, (h : k < 16) → s.key[k] = false) →
      ∃ t, exec (.ldVxK x) s = .next t ∧ t = { s with audio := t.audio } ∧ KeepsMemory s t ∧
        (t.audio = true ↔ 0 < s.st.value.toNat))

/-- `LD DT,Vx` and `LD ST,Vx` write their timer, arm a countdown that was not running, keep the phase of one that goes on and end
one at 0 (R194, R195, R214; D19; the phase 0 of a timer at rest is log 7). -/
def Obligations.SetTimers : Prop :=
  ∀ (x : Reg) (s : State),
    (∃ t, exec (.ldDtVx x) s = .next t ∧ t.dt.value = s.reg x ∧
      t.dt.phase = (if s.dt.value = 0#8 ∨ s.reg x = 0#8 then 0 else s.dt.phase) ∧ KeepsMemory s t ∧
      t = { s with dt := t.dt, pc := t.pc, audio := t.audio } ∧ t.EndedAt (s.pc.toNat + 2)) ∧
    (∃ t, exec (.ldStVx x) s = .next t ∧ t.st.value = s.reg x ∧
      t.st.phase = (if s.st.value = 0#8 ∨ s.reg x = 0#8 then 0 else s.st.phase) ∧ KeepsMemory s t ∧
      t = { s with st := t.st, pc := t.pc, audio := t.audio } ∧ t.EndedAt (s.pc.toNat + 2))

/-- `TimerTick`: enabled iff the timer is above 0, lowers it by 1 and changes nothing else, whatever `STATUS` is (R215). The phase
of the countdown is kept, and is 0 once the countdown has ended (log 7). -/
def Obligations.TimerTickDecrements : Prop :=
  ∀ (s : State) (rest : List Event),
    (s.agenda = .timerTick .delay :: rest → ∃ t, step s = .next t ∧
      (0 < s.dt.value.toNat → t.dt.value.toNat + 1 = s.dt.value.toNat ∧
        t.dt.phase = if t.dt.value = 0#8 then 0 else s.dt.phase) ∧
      (s.dt.value = 0#8 → t.dt = s.dt) ∧
      t = { s with agenda := rest, dt := t.dt }) ∧
    (s.agenda = .timerTick .sound :: rest → ∃ t, step s = .next t ∧
      (0 < s.st.value.toNat → t.st.value.toNat + 1 = s.st.value.toNat ∧
        t.st.phase = if t.st.value = 0#8 then 0 else s.st.phase) ∧
      (s.st.value = 0#8 → t.st = s.st) ∧
      t = { s with agenda := rest, st := t.st })

/-- Cadence: a countdown armed at value `v` and not rewritten reads `v - k` once `k/60` seconds have passed and not `(k+1)/60`,
and reads 0 from `v/60` on (R216; D21); and time passes in any portions alike, so that a rewrite, which keeps the phase, neither
doubles nor re-phases it (R217). The step of an `elapse` event lets the time pass for both timers, each by itself, and changes
nothing else; a negative time changes neither (log 7). -/
def Obligations.CountdownKeepsCadence : Prop :=
  (∀ (v : Byte) (d : Rat) (k : Nat), v ≠ 0#8 → (k : Rat) / 60 ≤ d → d < ((k : Rat) + 1) / 60 →
    ((({ value := 0#8, phase := 0 } : Timer).set v).elapse d).value.toNat = v.toNat - k) ∧
  (∀ (t : Timer) (d e : Rat), t.Sound → 0 ≤ d → 0 ≤ e → (t.elapse d).elapse e = t.elapse (d + e)) ∧
  (∀ (t : Timer) (v : Byte), v ≠ 0#8 → t.value ≠ 0#8 → (t.set v).phase = t.phase) ∧
  (∀ (s : State) (d : Rat) (rest : List Event), s.agenda = .elapse d :: rest →
    step s = .next { s with agenda := rest, dt := s.dt.elapse d, st := s.st.elapse d } ∧
    (d < 0 → s.dt.elapse d = s.dt ∧ s.st.elapse d = s.st))

/-! ## The host's operations (40_cycle_and_scheduler.md, 60_exceptions.md, 70_reset_and_hazards.md) -/

/-- `SchedTick`: the first sets the baseline and issues no cycle; a later one issues `max(0, floor(CLOCK_HZ * elapsed))`, none
while `STATUS` is `Faulted`, and always moves the baseline (R88, R89, R92; D24, D25). -/
def Obligations.SchedTickIssuesBurst : Prop :=
  ∀ (s : State) (now : Rat) (rest : List Event), s.agenda = .schedTick now :: rest → s.burst = 0 →
    (s.lastT = none → step s = .next { s with agenda := rest, lastT := some now }) ∧
    (∀ before hz, s.lastT = some before → s.clockHz = some hz → ∃ t, step s = .next t ∧
      (s.status = .running → (t.burst : Int) = max 0 ⌊hz * (now - before)⌋) ∧ (s.status ≠ .running → t.burst = 0) ∧
      t = { s with agenda := rest, lastT := some now, burst := t.burst })

/-- `SetClockHz`, `Press`, `Release`, `ProvideFonts`, and `SetMode`, which is the host's only without `MODE_OPS`: the write, or the
refusal that changes nothing and is reported (R90, R172, R220, R242; D2, D22, D38). All but `SetClockHz` inside a burst too (R52,
R91). That a `SetMode` is refused with `MODE_OPS` is log 20, and that it is taken at every boundary between cycles log 21. -/
def Obligations.HostWritesOrRefuses : Prop :=
  ∀ (s : State) (rest : List Event),
    (∀ r, s.agenda = .setClockHz r :: rest → s.burst = 0 ∨ s.status ≠ .running →
      (∀ hz, r = .finite hz → 0 < hz → step s = .next { s with agenda := rest, clockHz := some hz } ∧ outputs s = []) ∧
      (∀ hz, r = .finite hz → hz ≤ 0 → step s = .next { s with agenda := rest } ∧ outputs s = [.rejected (.setClockHz r)]) ∧
      (r = .notFinite → step s = .next { s with agenda := rest } ∧ outputs s = [.rejected (.setClockHz r)])) ∧
    (∀ k, s.agenda = .press k :: rest →
      ((h : k < 16) → step s = .next { s with agenda := rest, key := s.key.set k true } ∧ outputs s = []) ∧
      (16 ≤ k → step s = .next { s with agenda := rest } ∧ outputs s = [.rejected (.press k)])) ∧
    (∀ k, s.agenda = .release k :: rest →
      ((h : k < 16) → step s = .next { s with agenda := rest, key := s.key.set k false } ∧ outputs s = []) ∧
      (16 ≤ k → step s = .next { s with agenda := rest } ∧ outputs s = [.rejected (.release k)])) ∧
    (∀ std ext, s.agenda = .provideFonts std ext :: rest →
      (std.length = 80 ∧ ext.length = 320 →
        step s = .next { s with agenda := rest, fonts := some { std := std, ext := ext } } ∧ outputs s = []) ∧
      (¬(std.length = 80 ∧ ext.length = 320) →
        step s = .next { s with agenda := rest } ∧ outputs s = [.rejected (.provideFonts std ext)])) ∧
    (∀ e, s.agenda = .setMode e :: rest →
      (s.config.modeOps = false → step s = .next { s with agenda := rest, ext := e } ∧ outputs s = []) ∧
      (s.config.modeOps = true → step s = .next { s with agenda := rest } ∧ outputs s = [.rejected (.setMode e)]))

/-- `Reset` and `PowerOn`: every component of R33's table at its value there (`PC` is the source's, the others are D17, D18, D29),
and `CLOCK_HZ`, `LAST_T`, `FONTS` kept by `Reset` and as R241 says after `PowerOn` (R240, R241; D25). -/
def Obligations.ResetLeavesTable : Prop :=
  ∀ (s : State) (rest : List Event) (e : Event), e = .reset ∨ e = .powerOn → s.agenda = e :: rest →
    ∃ t, step s = .next t ∧ t.pc = 512#16 ∧ (∀ x, t.reg x = 0#8) ∧ t.i = 0#16 ∧ t.sp = 0 ∧
      (∀ a, Store.read t.stack a = 0#16) ∧ t.dt.value = 0#8 ∧ t.st.value = 0#8 ∧ (∀ k, t.keyDown k = false) ∧
      (∀ a, Store.read t.vram a = 0#8) ∧ t.ext = false ∧ (∀ a, t.byte a = 0#8) ∧ t.ir = 0#16 ∧ t.audio = false ∧
      t.status = .running ∧
      (e = .reset → t.clockHz = s.clockHz ∧ t.lastT = s.lastT ∧ t.fonts = s.fonts) ∧
      (e = .powerOn → t.clockHz = none ∧ t.lastT = none ∧ t.fonts = none)

/-- `LoadProgram`: the reset state, with both fonts and the program, cut to 3584 bytes, in memory and every other byte 0; without
fonts the reset state alone, and the report `FontMissing` (R34, R206, R243; D18, D26, D27). -/
def Obligations.LoadPlacesFontsAndProgram : Prop :=
  ∀ (s : State) (rest : List Event) (rom : List Byte), s.Inv → s.agenda = .loadProgram rom :: rest →
    ∃ t r, step s = .next t ∧ step { s with agenda := .reset :: rest } = .next r ∧
      (∀ f, s.fonts = some f → t = { r with mem := t.mem } ∧ outputs s = [] ∧
        ∀ a, t.byte a =
          if a < 80 then f.std.getD a 0#8
          else if a < 400 then f.ext.getD (a - 80) 0#8
          else if 512 ≤ a ∧ a < 4096 then rom.getD (a - 512) 0#8
          else 0#8) ∧
      (s.fonts = none → t = r ∧ outputs s = [.configFault .fontMissing])
end

