-- ==== Sys2Proof/Laws/Decode.lean ====
section
/-! SUPPORT. The fields of a packed word (30_encoding.md R61), and a word from its fields. -/

namespace Sys2Proof

/-! ## A packed word as a number -/

theorem packNnn_toNat (f : Nibble) (nnn : Addr) : (packNnn f nnn).toNat = f.toNat * 4096 + nnn.toNat := by
  have h := nnn.isLt
  have e : (packNnn f nnn).toNat = f.toNat <<< 12 ||| nnn.toNat := BitVec.toNat_append ..
  rw [e, ← Nat.shiftLeft_add_eq_or_of_lt h, Nat.shiftLeft_eq]

theorem packXkk_toNat (f : Nibble) (x : Reg) (kk : Byte) :
    (packXkk f x kk).toNat = f.toNat * 4096 + x.val * 256 + kk.toNat := by
  have hx : (BitVec.ofFin x : Nibble).toNat < 2 ^ 4 := BitVec.isLt _
  have hk := kk.isLt
  have e : (packXkk f x kk).toNat = (f.toNat <<< 4 ||| x.val) <<< 8 ||| kk.toNat := by
    rw [packXkk, BitVec.toNat_append, BitVec.toNat_append]; rfl
  rw [e, ← Nat.shiftLeft_add_eq_or_of_lt hk, ← Nat.shiftLeft_add_eq_or_of_lt (show x.val < 2 ^ 4 from x.isLt),
    Nat.shiftLeft_eq, Nat.shiftLeft_eq]
  omega

theorem packXyn_toNat (f : Nibble) (x y : Reg) (n : Nibble) :
    (packXyn f x y n).toNat = f.toNat * 4096 + x.val * 256 + y.val * 16 + n.toNat := by
  have hn := n.isLt
  have e : (packXyn f x y n).toNat = ((f.toNat <<< 4 ||| x.val) <<< 4 ||| y.val) <<< 4 ||| n.toNat := by
    rw [packXyn, BitVec.toNat_append, BitVec.toNat_append, BitVec.toNat_append]; rfl
  rw [e, ← Nat.shiftLeft_add_eq_or_of_lt hn, ← Nat.shiftLeft_add_eq_or_of_lt (show y.val < 2 ^ 4 from y.isLt),
    ← Nat.shiftLeft_add_eq_or_of_lt (show x.val < 2 ^ 4 from x.isLt), Nat.shiftLeft_eq, Nat.shiftLeft_eq,
    Nat.shiftLeft_eq]
  omega

/-! ## A field as a number -/

theorem family_toNat (w : Word) : (family w).toNat = w.toNat / 4096 % 16 := by
  simp [family, Nat.shiftRight_eq_div_pow]

theorem fieldNnn_toNat (w : Word) : (fieldNnn w).toNat = w.toNat % 4096 := by
  simp [fieldNnn]

theorem fieldX_val (w : Word) : (fieldX w).val = w.toNat / 256 % 16 := by
  have e : (fieldX w).val = (w.extractLsb' 8 4).toNat := rfl
  rw [e]; simp [Nat.shiftRight_eq_div_pow]

theorem fieldY_val (w : Word) : (fieldY w).val = w.toNat / 16 % 16 := by
  have e : (fieldY w).val = (w.extractLsb' 4 4).toNat := rfl
  rw [e]; simp [Nat.shiftRight_eq_div_pow]

theorem fieldKk_toNat (w : Word) : (fieldKk w).toNat = w.toNat % 256 := by
  simp [fieldKk]

theorem fieldN_toNat (w : Word) : (fieldN w).toNat = w.toNat % 16 := by
  simp [fieldN]

/-! ## The fields of each format -/

section Formats
variable (f : Nibble) (x y : Reg) (kk : Byte) (n : Nibble) (nnn : Addr)

@[simp] theorem family_packNnn : family (packNnn f nnn) = f := by
  apply BitVec.eq_of_toNat_eq; rw [family_toNat, packNnn_toNat]; omega

@[simp] theorem fieldNnn_packNnn : fieldNnn (packNnn f nnn) = nnn := by
  apply BitVec.eq_of_toNat_eq; rw [fieldNnn_toNat, packNnn_toNat]; omega

@[simp] theorem family_packXkk : family (packXkk f x kk) = f := by
  apply BitVec.eq_of_toNat_eq; rw [family_toNat, packXkk_toNat]; omega

@[simp] theorem fieldX_packXkk : fieldX (packXkk f x kk) = x := by
  apply Fin.ext; rw [fieldX_val, packXkk_toNat]; omega

@[simp] theorem fieldKk_packXkk : fieldKk (packXkk f x kk) = kk := by
  apply BitVec.eq_of_toNat_eq; rw [fieldKk_toNat, packXkk_toNat]; omega

@[simp] theorem family_packXyn : family (packXyn f x y n) = f := by
  apply BitVec.eq_of_toNat_eq; rw [family_toNat, packXyn_toNat]; omega

@[simp] theorem fieldX_packXyn : fieldX (packXyn f x y n) = x := by
  apply Fin.ext; rw [fieldX_val, packXyn_toNat]; omega

@[simp] theorem fieldY_packXyn : fieldY (packXyn f x y n) = y := by
  apply Fin.ext; rw [fieldY_val, packXyn_toNat]; omega

@[simp] theorem fieldN_packXyn : fieldN (packXyn f x y n) = n := by
  apply BitVec.eq_of_toNat_eq; rw [fieldN_toNat, packXyn_toNat]; omega

end Formats

/-! ## A word from its fields -/

theorem packNnn_fields (w : Word) : packNnn (family w) (fieldNnn w) = w := by
  apply BitVec.eq_of_toNat_eq; rw [packNnn_toNat, family_toNat, fieldNnn_toNat]; omega

theorem packXkk_fields (w : Word) : packXkk (family w) (fieldX w) (fieldKk w) = w := by
  apply BitVec.eq_of_toNat_eq; rw [packXkk_toNat, family_toNat, fieldX_val, fieldKk_toNat]; omega

theorem packXyn_fields (w : Word) : packXyn (family w) (fieldX w) (fieldY w) (fieldN w) = w := by
  apply BitVec.eq_of_toNat_eq; rw [packXyn_toNat, family_toNat, fieldX_val, fieldY_val, fieldN_toNat]; omega

/-! ## Bytes of a word (20_memory.md R46) -/

theorem highByte_toNat (w : Word) : (highByte w).toNat = w.toNat / 256 % 256 := by
  simp [highByte, Nat.shiftRight_eq_div_pow]

theorem lowByte_toNat (w : Word) : (lowByte w).toNat = w.toNat % 256 := by
  simp [lowByte]

theorem wordOfBytes_toNat (hi lo : Byte) : (wordOfBytes hi lo).toNat = hi.toNat * 256 + lo.toNat := by
  have h := lo.isLt
  have e : (wordOfBytes hi lo).toNat = hi.toNat <<< 8 ||| lo.toNat := BitVec.toNat_append ..
  rw [e, ← Nat.shiftLeft_add_eq_or_of_lt h, Nat.shiftLeft_eq]

@[simp] theorem wordOfBytes_bytes (w : Word) : wordOfBytes (highByte w) (lowByte w) = w := by
  apply BitVec.eq_of_toNat_eq; rw [wordOfBytes_toNat, highByte_toNat, lowByte_toNat]; omega

@[simp] theorem highByte_wordOfBytes (hi lo : Byte) : highByte (wordOfBytes hi lo) = hi := by
  apply BitVec.eq_of_toNat_eq; rw [highByte_toNat, wordOfBytes_toNat]; omega

@[simp] theorem lowByte_wordOfBytes (hi lo : Byte) : lowByte (wordOfBytes hi lo) = lo := by
  apply BitVec.eq_of_toNat_eq; rw [lowByte_toNat, wordOfBytes_toNat]; omega

end Sys2Proof
end

