-- ==== Sys2Proof/Laws/Memory.lean ====
section
/-! SUPPORT. The laws of sparse stores: read after write, and the canonical form every operation keeps. -/

namespace Sys2Proof

variable {w : Nat}

/-! ## Reads after writes, in any store -/

@[simp] theorem Store.read_nil (a : Nat) : Store.read ([] : Store w) a = 0#w := rfl

theorem Store.read_erase_same (m : Store w) (a : Nat) : Store.read (Store.erase m a) a = 0#w := by
  induction m with
  | nil => rfl
  | cons c rest ih =>
    obtain ⟨k, u⟩ := c
    by_cases h : k = a <;> simp [Store.erase, Store.read, h, ih]

theorem Store.read_erase_ne (m : Store w) {a b : Nat} (hne : b ≠ a) :
    Store.read (Store.erase m a) b = Store.read m b := by
  induction m with
  | nil => rfl
  | cons c rest ih =>
    obtain ⟨k, u⟩ := c
    by_cases h : k = a
    · subst h; simp [Store.erase, Store.read, ih, Ne.symm hne]
    · simp [Store.erase, Store.read, h, ih]

/-- Every key of an erased store differs from the address erased. -/
theorem Store.key_ne_of_mem_erase (m : Store w) (a : Nat) : ∀ c ∈ Store.erase m a, c.1 ≠ a := by
  induction m with
  | nil => simp [Store.erase]
  | cons c rest ih =>
    obtain ⟨k, u⟩ := c
    by_cases h : k = a
    · simpa [Store.erase, h] using ih
    · simp only [Store.erase, h, if_false, List.mem_cons, forall_eq_or_imp]
      exact ⟨h, ih⟩

theorem Store.read_insert_ne (m : Store w) {a b : Nat} (v : BitVec w) (hne : b ≠ a) :
    Store.read (Store.insert m a v) b = Store.read m b := by
  induction m with
  | nil => simp [Store.insert, Store.read, Ne.symm hne]
  | cons c rest ih =>
    obtain ⟨k, u⟩ := c
    by_cases h : a < k <;> simp [Store.insert, Store.read, h, ih, Ne.symm hne]

theorem Store.read_insert_same (m : Store w) (a : Nat) (v : BitVec w) (hm : ∀ c ∈ m, c.1 ≠ a) :
    Store.read (Store.insert m a v) a = v := by
  induction m with
  | nil => simp [Store.insert, Store.read]
  | cons c rest ih =>
    obtain ⟨k, u⟩ := c
    have hk : k ≠ a := hm (k, u) (List.mem_cons_self ..)
    have ih := ih fun c hc => hm c (List.mem_cons_of_mem _ hc)
    by_cases h : a < k <;> simp [Store.insert, Store.read, h, hk, ih]

@[simp] theorem Store.read_write_same (m : Store w) (a : Nat) (v : BitVec w) :
    Store.read (Store.write m a v) a = v := by
  unfold Store.write
  split
  · next h => rw [Store.read_erase_same, h]
  · exact Store.read_insert_same _ _ _ (Store.key_ne_of_mem_erase m a)

theorem Store.read_write_ne (m : Store w) {a b : Nat} (v : BitVec w) (hne : b ≠ a) :
    Store.read (Store.write m a v) b = Store.read m b := by
  unfold Store.write
  split
  · exact Store.read_erase_ne m hne
  · rw [Store.read_insert_ne _ v hne, Store.read_erase_ne m hne]

theorem Store.read_write (m : Store w) (a b : Nat) (v : BitVec w) :
    Store.read (Store.write m a v) b = if b = a then v else Store.read m b := by
  by_cases h : b = a
  · subst h; simp
  · simp [h, Store.read_write_ne]

/-- What a block write leaves at each address. -/
theorem Store.read_writeList (bs : List (BitVec w)) : ∀ (m : Store w) (a b : Nat),
    Store.read (Store.writeList m a bs) b =
      if h : a ≤ b ∧ b < a + bs.length then bs[b - a]'(by omega) else Store.read m b := by
  induction bs with
  | nil => intro m a b; simp [Store.writeList]
  | cons v rest ih =>
    intro m a b
    rw [Store.writeList, ih, Store.read_write]
    rcases Nat.lt_trichotomy b a with h | h | h
    · simp only [List.length_cons]
      rw [dif_neg (by omega), dif_neg (by omega), if_neg (by omega)]
    · subst h
      rw [dif_neg (by omega), if_pos rfl, dif_pos (by simp)]
      simp
    · simp only [List.length_cons]
      by_cases hb : b < a + 1 + rest.length
      · rw [dif_pos (by omega), dif_pos (by omega)]
        obtain ⟨d, rfl⟩ : ∃ d, b = a + 1 + d := ⟨b - (a + 1), by omega⟩
        simp [show a + 1 + d - a = d + 1 by omega]
      · rw [dif_neg (by omega), dif_neg (by omega), if_neg (by omega)]

/-- A block write leaves every address outside the block alone. -/
theorem Store.read_writeList_outside (m : Store w) (a b : Nat) (bs : List (BitVec w))
    (h : b < a ∨ a + bs.length ≤ b) : Store.read (Store.writeList m a bs) b = Store.read m b := by
  rw [Store.read_writeList, dif_neg (by omega)]

@[simp] theorem Store.readList_length (m : Store w) (a n : Nat) : (Store.readList m a n).length = n := by
  simp [Store.readList]

theorem Store.readList_getElem (m : Store w) (a n j : Nat) (h : j < (Store.readList m a n).length) :
    (Store.readList m a n)[j] = Store.read m (a + j) := by
  simp [Store.readList]

/-! ## The canonical form -/

theorem Store.wfFrom_mono {lo lo' hi : Nat} (m : Store w) (hle : lo' ≤ lo) (h : Store.wfFrom lo hi m = true) :
    Store.wfFrom lo' hi m = true := by
  cases m with
  | nil => rfl
  | cons c rest =>
    obtain ⟨k, u⟩ := c
    simp only [Store.wfFrom, Bool.and_eq_true, decide_eq_true_eq] at h ⊢
    exact ⟨⟨⟨by omega, h.1.1.2⟩, h.1.2⟩, h.2⟩

theorem Store.wfFrom_erase {hi : Nat} (m : Store w) (a : Nat) : ∀ {lo : Nat}, Store.wfFrom lo hi m = true →
    Store.wfFrom lo hi (Store.erase m a) = true := by
  induction m with
  | nil => intro lo h; rfl
  | cons c rest ih =>
    obtain ⟨k, u⟩ := c
    intro lo h
    simp only [Store.wfFrom, Bool.and_eq_true, decide_eq_true_eq] at h
    by_cases hk : k = a
    · rw [Store.erase, if_pos hk]
      exact Store.wfFrom_mono _ (by omega) (ih h.2)
    · rw [Store.erase, if_neg hk]
      simp only [Store.wfFrom, Bool.and_eq_true, decide_eq_true_eq]
      exact ⟨h.1, ih h.2⟩

theorem Store.wfFrom_insert {hi a : Nat} {v : BitVec w} (hv : v ≠ 0#w) (ha : a < hi) (m : Store w) :
    ∀ {lo : Nat}, lo ≤ a → (∀ c ∈ m, c.1 ≠ a) → Store.wfFrom lo hi m = true →
      Store.wfFrom lo hi (Store.insert m a v) = true := by
  induction m with
  | nil => intro lo hlo _ _; simp [Store.insert, Store.wfFrom, hlo, ha, hv]
  | cons c rest ih =>
    obtain ⟨k, u⟩ := c
    intro lo hlo hne h
    have hk : k ≠ a := hne (k, u) (List.mem_cons_self ..)
    simp only [Store.wfFrom, Bool.and_eq_true, decide_eq_true_eq] at h
    by_cases hak : a < k
    · rw [Store.insert, if_pos hak]
      simp only [Store.wfFrom, Bool.and_eq_true, decide_eq_true_eq, bne_iff_ne]
      exact ⟨⟨⟨hlo, ha⟩, hv⟩, ⟨⟨hak, h.1.1.2⟩, by simpa using h.1.2⟩, h.2⟩
    · rw [Store.insert, if_neg hak]
      simp only [Store.wfFrom, Bool.and_eq_true, decide_eq_true_eq]
      exact ⟨h.1, ih (by omega) (fun c hc => hne c (List.mem_cons_of_mem _ hc)) h.2⟩

/-- A write inside the store keeps the canonical form. -/
theorem Store.wf_write {size a : Nat} (m : Store w) (v : BitVec w) (ha : a < size)
    (h : Store.wf size m = true) : Store.wf size (Store.write m a v) = true := by
  unfold Store.write
  split
  · exact Store.wfFrom_erase m a h
  · next hv =>
    exact Store.wfFrom_insert hv ha _ (Nat.zero_le a) (Store.key_ne_of_mem_erase m a) (Store.wfFrom_erase m a h)

/-- A block write inside the store keeps the canonical form. -/
theorem Store.wf_writeList {size : Nat} (bs : List (BitVec w)) : ∀ (m : Store w) (a : Nat),
    a + bs.length ≤ size → Store.wf size m = true → Store.wf size (Store.writeList m a bs) = true := by
  induction bs with
  | nil => intro m a _ h; exact h
  | cons v rest ih =>
    intro m a hle h
    rw [List.length_cons] at hle
    exact ih _ _ (by omega) (Store.wf_write m v (by omega) h)

theorem Store.read_eq_zero_of_wfFrom {hi : Nat} (m : Store w) {b : Nat} : ∀ {lo : Nat}, b < lo →
    Store.wfFrom lo hi m = true → Store.read m b = 0#w := by
  induction m with
  | nil => intro lo _ _; rfl
  | cons c rest ih =>
    obtain ⟨k, u⟩ := c
    intro lo hb h
    simp only [Store.wfFrom, Bool.and_eq_true, decide_eq_true_eq] at h
    rw [Store.read, if_neg (by omega)]
    exact ih (lo := k + 1) (by omega) h.2

theorem Store.eq_of_read_eq_from {hi : Nat} (m : Store w) : ∀ (m' : Store w) {lo : Nat},
    Store.wfFrom lo hi m = true → Store.wfFrom lo hi m' = true →
    (∀ a, Store.read m a = Store.read m' a) → m = m' := by
  have tail : ∀ (k : Nat) (u : BitVec w) (r r' : Store w), Store.wfFrom (k + 1) hi r = true →
      Store.wfFrom (k + 1) hi r' = true →
      (∀ a, Store.read ((k, u) :: r) a = Store.read ((k, u) :: r') a) →
      ∀ a, Store.read r a = Store.read r' a := by
    intro k u r r' hr hr' he a
    by_cases ha : a = k
    · subst ha
      rw [Store.read_eq_zero_of_wfFrom r (Nat.lt_succ_self a) hr,
        Store.read_eq_zero_of_wfFrom r' (Nat.lt_succ_self a) hr']
    · simpa [Store.read, Ne.symm ha] using he a
  induction m with
  | nil =>
    intro m' lo _ h' he
    cases m' with
    | nil => rfl
    | cons c' rest' =>
      obtain ⟨k', u'⟩ := c'
      simp only [Store.wfFrom, Bool.and_eq_true] at h'
      have := he k'
      simp only [Store.read, if_true] at this
      simp [← this] at h'
  | cons c rest ih =>
    obtain ⟨k, u⟩ := c
    intro m' lo h h' he
    cases m' with
    | nil =>
      simp only [Store.wfFrom, Bool.and_eq_true] at h
      have := he k
      simp only [Store.read, if_true] at this
      simp [this] at h
    | cons c' rest' =>
      obtain ⟨k', u'⟩ := c'
      simp only [Store.wfFrom, Bool.and_eq_true, decide_eq_true_eq, bne_iff_ne] at h h'
      have hk : k = k' := by
        rcases Nat.lt_trichotomy k k' with hlt | heq | hlt
        · have := he k
          rw [Store.read, if_pos rfl, Store.read, if_neg (by omega),
            Store.read_eq_zero_of_wfFrom rest' (lo := k' + 1) (by omega) h'.2] at this
          exact absurd this h.1.2
        · exact heq
        · have := he k'
          rw [Store.read, if_neg (by omega), Store.read_eq_zero_of_wfFrom rest (lo := k + 1) (by omega) h.2,
            Store.read, if_pos rfl] at this
          exact absurd this.symm h'.1.2
      subst hk
      have hu : u = u' := by simpa [Store.read] using he k
      subst hu
      rw [ih rest' h.2 h'.2 (tail k u rest rest' h.2 h'.2 he)]

/-- Canonical stores that read alike are the same data. -/
theorem Store.eq_of_read_eq {size : Nat} {m m' : Store w} (h : Store.wf size m = true) (h' : Store.wf size m' = true)
    (he : ∀ a, Store.read m a = Store.read m' a) : m = m' := Store.eq_of_read_eq_from m m' h h' he

end Sys2Proof
end

