-- ==== Sys2Proof/Laws/State.lean ====
section
/-! SUPPORT. What each named update of the state does to each field: one lemma per field per update. -/

namespace Sys2Proof.Machine

variable (s : State)

/-! ## `setReg` -/

@[simp] theorem State.setReg_v (x : Reg) (b : Byte) : (s.setReg x b).v = s.v.set x b := rfl
@[simp] theorem State.setReg_i (x : Reg) (b : Byte) : (s.setReg x b).i = s.i := rfl
@[simp] theorem State.setReg_pc (x : Reg) (b : Byte) : (s.setReg x b).pc = s.pc := rfl
@[simp] theorem State.setReg_stack (x : Reg) (b : Byte) : (s.setReg x b).stack = s.stack := rfl
@[simp] theorem State.setReg_sp (x : Reg) (b : Byte) : (s.setReg x b).sp = s.sp := rfl
@[simp] theorem State.setReg_dt (x : Reg) (b : Byte) : (s.setReg x b).dt = s.dt := rfl
@[simp] theorem State.setReg_st (x : Reg) (b : Byte) : (s.setReg x b).st = s.st := rfl
@[simp] theorem State.setReg_key (x : Reg) (b : Byte) : (s.setReg x b).key = s.key := rfl
@[simp] theorem State.setReg_vram (x : Reg) (b : Byte) : (s.setReg x b).vram = s.vram := rfl
@[simp] theorem State.setReg_ext (x : Reg) (b : Byte) : (s.setReg x b).ext = s.ext := rfl
@[simp] theorem State.setReg_mem (x : Reg) (b : Byte) : (s.setReg x b).mem = s.mem := rfl
@[simp] theorem State.setReg_ir (x : Reg) (b : Byte) : (s.setReg x b).ir = s.ir := rfl
@[simp] theorem State.setReg_audio (x : Reg) (b : Byte) : (s.setReg x b).audio = s.audio := rfl
@[simp] theorem State.setReg_status (x : Reg) (b : Byte) : (s.setReg x b).status = s.status := rfl
@[simp] theorem State.setReg_clockHz (x : Reg) (b : Byte) : (s.setReg x b).clockHz = s.clockHz := rfl
@[simp] theorem State.setReg_lastT (x : Reg) (b : Byte) : (s.setReg x b).lastT = s.lastT := rfl
@[simp] theorem State.setReg_fonts (x : Reg) (b : Byte) : (s.setReg x b).fonts = s.fonts := rfl
@[simp] theorem State.setReg_config (x : Reg) (b : Byte) : (s.setReg x b).config = s.config := rfl
@[simp] theorem State.setReg_burst (x : Reg) (b : Byte) : (s.setReg x b).burst = s.burst := rfl
@[simp] theorem State.setReg_draws (x : Reg) (b : Byte) : (s.setReg x b).draws = s.draws := rfl
@[simp] theorem State.setReg_agenda (x : Reg) (b : Byte) : (s.setReg x b).agenda = s.agenda := rfl

/-! ## `setRegAndFlag` -/

@[simp] theorem State.setRegAndFlag_v (x : Reg) (b f : Byte) : (s.setRegAndFlag x b f).v = (s.v.set x b).set vf f := rfl
@[simp] theorem State.setRegAndFlag_i (x : Reg) (b f : Byte) : (s.setRegAndFlag x b f).i = s.i := rfl
@[simp] theorem State.setRegAndFlag_pc (x : Reg) (b f : Byte) : (s.setRegAndFlag x b f).pc = s.pc := rfl
@[simp] theorem State.setRegAndFlag_stack (x : Reg) (b f : Byte) : (s.setRegAndFlag x b f).stack = s.stack := rfl
@[simp] theorem State.setRegAndFlag_sp (x : Reg) (b f : Byte) : (s.setRegAndFlag x b f).sp = s.sp := rfl
@[simp] theorem State.setRegAndFlag_dt (x : Reg) (b f : Byte) : (s.setRegAndFlag x b f).dt = s.dt := rfl
@[simp] theorem State.setRegAndFlag_st (x : Reg) (b f : Byte) : (s.setRegAndFlag x b f).st = s.st := rfl
@[simp] theorem State.setRegAndFlag_key (x : Reg) (b f : Byte) : (s.setRegAndFlag x b f).key = s.key := rfl
@[simp] theorem State.setRegAndFlag_vram (x : Reg) (b f : Byte) : (s.setRegAndFlag x b f).vram = s.vram := rfl
@[simp] theorem State.setRegAndFlag_ext (x : Reg) (b f : Byte) : (s.setRegAndFlag x b f).ext = s.ext := rfl
@[simp] theorem State.setRegAndFlag_mem (x : Reg) (b f : Byte) : (s.setRegAndFlag x b f).mem = s.mem := rfl
@[simp] theorem State.setRegAndFlag_ir (x : Reg) (b f : Byte) : (s.setRegAndFlag x b f).ir = s.ir := rfl
@[simp] theorem State.setRegAndFlag_audio (x : Reg) (b f : Byte) : (s.setRegAndFlag x b f).audio = s.audio := rfl
@[simp] theorem State.setRegAndFlag_status (x : Reg) (b f : Byte) : (s.setRegAndFlag x b f).status = s.status := rfl
@[simp] theorem State.setRegAndFlag_clockHz (x : Reg) (b f : Byte) : (s.setRegAndFlag x b f).clockHz = s.clockHz := rfl
@[simp] theorem State.setRegAndFlag_lastT (x : Reg) (b f : Byte) : (s.setRegAndFlag x b f).lastT = s.lastT := rfl
@[simp] theorem State.setRegAndFlag_fonts (x : Reg) (b f : Byte) : (s.setRegAndFlag x b f).fonts = s.fonts := rfl
@[simp] theorem State.setRegAndFlag_config (x : Reg) (b f : Byte) : (s.setRegAndFlag x b f).config = s.config := rfl
@[simp] theorem State.setRegAndFlag_burst (x : Reg) (b f : Byte) : (s.setRegAndFlag x b f).burst = s.burst := rfl
@[simp] theorem State.setRegAndFlag_draws (x : Reg) (b f : Byte) : (s.setRegAndFlag x b f).draws = s.draws := rfl
@[simp] theorem State.setRegAndFlag_agenda (x : Reg) (b f : Byte) : (s.setRegAndFlag x b f).agenda = s.agenda := rfl

/-! ## `setPc` -/

@[simp] theorem State.setPc_v (t : Nat) : (s.setPc t).v = s.v := rfl
@[simp] theorem State.setPc_i (t : Nat) : (s.setPc t).i = s.i := rfl
@[simp] theorem State.setPc_pc (t : Nat) : (s.setPc t).pc = pcTarget t := rfl
@[simp] theorem State.setPc_stack (t : Nat) : (s.setPc t).stack = s.stack := rfl
@[simp] theorem State.setPc_sp (t : Nat) : (s.setPc t).sp = s.sp := rfl
@[simp] theorem State.setPc_dt (t : Nat) : (s.setPc t).dt = s.dt := rfl
@[simp] theorem State.setPc_st (t : Nat) : (s.setPc t).st = s.st := rfl
@[simp] theorem State.setPc_key (t : Nat) : (s.setPc t).key = s.key := rfl
@[simp] theorem State.setPc_vram (t : Nat) : (s.setPc t).vram = s.vram := rfl
@[simp] theorem State.setPc_ext (t : Nat) : (s.setPc t).ext = s.ext := rfl
@[simp] theorem State.setPc_mem (t : Nat) : (s.setPc t).mem = s.mem := rfl
@[simp] theorem State.setPc_ir (t : Nat) : (s.setPc t).ir = s.ir := rfl
@[simp] theorem State.setPc_audio (t : Nat) : (s.setPc t).audio = s.audio := rfl
@[simp] theorem State.setPc_status (t : Nat) : (s.setPc t).status = s.status := rfl
@[simp] theorem State.setPc_clockHz (t : Nat) : (s.setPc t).clockHz = s.clockHz := rfl
@[simp] theorem State.setPc_lastT (t : Nat) : (s.setPc t).lastT = s.lastT := rfl
@[simp] theorem State.setPc_fonts (t : Nat) : (s.setPc t).fonts = s.fonts := rfl
@[simp] theorem State.setPc_config (t : Nat) : (s.setPc t).config = s.config := rfl
@[simp] theorem State.setPc_burst (t : Nat) : (s.setPc t).burst = s.burst := rfl
@[simp] theorem State.setPc_draws (t : Nat) : (s.setPc t).draws = s.draws := rfl
@[simp] theorem State.setPc_agenda (t : Nat) : (s.setPc t).agenda = s.agenda := rfl

/-! ## `audioStep` -/

@[simp] theorem State.audioStep_v : (s.audioStep).v = s.v := rfl
@[simp] theorem State.audioStep_i : (s.audioStep).i = s.i := rfl
@[simp] theorem State.audioStep_pc : (s.audioStep).pc = s.pc := rfl
@[simp] theorem State.audioStep_stack : (s.audioStep).stack = s.stack := rfl
@[simp] theorem State.audioStep_sp : (s.audioStep).sp = s.sp := rfl
@[simp] theorem State.audioStep_dt : (s.audioStep).dt = s.dt := rfl
@[simp] theorem State.audioStep_st : (s.audioStep).st = s.st := rfl
@[simp] theorem State.audioStep_key : (s.audioStep).key = s.key := rfl
@[simp] theorem State.audioStep_vram : (s.audioStep).vram = s.vram := rfl
@[simp] theorem State.audioStep_ext : (s.audioStep).ext = s.ext := rfl
@[simp] theorem State.audioStep_mem : (s.audioStep).mem = s.mem := rfl
@[simp] theorem State.audioStep_ir : (s.audioStep).ir = s.ir := rfl
@[simp] theorem State.audioStep_audio : (s.audioStep).audio = (s.st.value != 0#8) := rfl
@[simp] theorem State.audioStep_status : (s.audioStep).status = s.status := rfl
@[simp] theorem State.audioStep_clockHz : (s.audioStep).clockHz = s.clockHz := rfl
@[simp] theorem State.audioStep_lastT : (s.audioStep).lastT = s.lastT := rfl
@[simp] theorem State.audioStep_fonts : (s.audioStep).fonts = s.fonts := rfl
@[simp] theorem State.audioStep_config : (s.audioStep).config = s.config := rfl
@[simp] theorem State.audioStep_burst : (s.audioStep).burst = s.burst := rfl
@[simp] theorem State.audioStep_draws : (s.audioStep).draws = s.draws := rfl
@[simp] theorem State.audioStep_agenda : (s.audioStep).agenda = s.agenda := rfl

/-! ## `endCycle` -/

@[simp] theorem State.endCycle_v : (s.endCycle).v = s.v := rfl
@[simp] theorem State.endCycle_i : (s.endCycle).i = s.i := rfl
@[simp] theorem State.endCycle_pc : (s.endCycle).pc = pcTarget (s.pc.toNat + Config.insnBytes) := rfl
@[simp] theorem State.endCycle_stack : (s.endCycle).stack = s.stack := rfl
@[simp] theorem State.endCycle_sp : (s.endCycle).sp = s.sp := rfl
@[simp] theorem State.endCycle_dt : (s.endCycle).dt = s.dt := rfl
@[simp] theorem State.endCycle_st : (s.endCycle).st = s.st := rfl
@[simp] theorem State.endCycle_key : (s.endCycle).key = s.key := rfl
@[simp] theorem State.endCycle_vram : (s.endCycle).vram = s.vram := rfl
@[simp] theorem State.endCycle_ext : (s.endCycle).ext = s.ext := rfl
@[simp] theorem State.endCycle_mem : (s.endCycle).mem = s.mem := rfl
@[simp] theorem State.endCycle_ir : (s.endCycle).ir = s.ir := rfl
@[simp] theorem State.endCycle_audio : (s.endCycle).audio = (s.st.value != 0#8) := rfl
@[simp] theorem State.endCycle_status : (s.endCycle).status = s.status := rfl
@[simp] theorem State.endCycle_clockHz : (s.endCycle).clockHz = s.clockHz := rfl
@[simp] theorem State.endCycle_lastT : (s.endCycle).lastT = s.lastT := rfl
@[simp] theorem State.endCycle_fonts : (s.endCycle).fonts = s.fonts := rfl
@[simp] theorem State.endCycle_config : (s.endCycle).config = s.config := rfl
@[simp] theorem State.endCycle_burst : (s.endCycle).burst = s.burst := rfl
@[simp] theorem State.endCycle_draws : (s.endCycle).draws = s.draws := rfl
@[simp] theorem State.endCycle_agenda : (s.endCycle).agenda = s.agenda := rfl

/-! ## `faulted` -/

@[simp] theorem State.faulted_v (f : CycleFault) : (s.faulted f).v = s.v := rfl
@[simp] theorem State.faulted_i (f : CycleFault) : (s.faulted f).i = s.i := rfl
@[simp] theorem State.faulted_pc (f : CycleFault) : (s.faulted f).pc = s.pc := rfl
@[simp] theorem State.faulted_stack (f : CycleFault) : (s.faulted f).stack = s.stack := rfl
@[simp] theorem State.faulted_sp (f : CycleFault) : (s.faulted f).sp = s.sp := rfl
@[simp] theorem State.faulted_dt (f : CycleFault) : (s.faulted f).dt = s.dt := rfl
@[simp] theorem State.faulted_st (f : CycleFault) : (s.faulted f).st = s.st := rfl
@[simp] theorem State.faulted_key (f : CycleFault) : (s.faulted f).key = s.key := rfl
@[simp] theorem State.faulted_vram (f : CycleFault) : (s.faulted f).vram = s.vram := rfl
@[simp] theorem State.faulted_ext (f : CycleFault) : (s.faulted f).ext = s.ext := rfl
@[simp] theorem State.faulted_mem (f : CycleFault) : (s.faulted f).mem = s.mem := rfl
@[simp] theorem State.faulted_ir (f : CycleFault) : (s.faulted f).ir = s.ir := rfl
@[simp] theorem State.faulted_audio (f : CycleFault) : (s.faulted f).audio = s.audio := rfl
@[simp] theorem State.faulted_status (f : CycleFault) : (s.faulted f).status = .faulted f := rfl
@[simp] theorem State.faulted_clockHz (f : CycleFault) : (s.faulted f).clockHz = s.clockHz := rfl
@[simp] theorem State.faulted_lastT (f : CycleFault) : (s.faulted f).lastT = s.lastT := rfl
@[simp] theorem State.faulted_fonts (f : CycleFault) : (s.faulted f).fonts = s.fonts := rfl
@[simp] theorem State.faulted_config (f : CycleFault) : (s.faulted f).config = s.config := rfl
@[simp] theorem State.faulted_burst (f : CycleFault) : (s.faulted f).burst = 0 := rfl
@[simp] theorem State.faulted_draws (f : CycleFault) : (s.faulted f).draws = s.draws := rfl
@[simp] theorem State.faulted_agenda (f : CycleFault) : (s.faulted f).agenda = s.agenda := rfl

/-! ## `setMode` -/

@[simp] theorem State.setMode_v (e : Bool) : (s.setMode e).v = s.v := rfl
@[simp] theorem State.setMode_i (e : Bool) : (s.setMode e).i = s.i := rfl
@[simp] theorem State.setMode_pc (e : Bool) : (s.setMode e).pc = s.pc := rfl
@[simp] theorem State.setMode_stack (e : Bool) : (s.setMode e).stack = s.stack := rfl
@[simp] theorem State.setMode_sp (e : Bool) : (s.setMode e).sp = s.sp := rfl
@[simp] theorem State.setMode_dt (e : Bool) : (s.setMode e).dt = s.dt := rfl
@[simp] theorem State.setMode_st (e : Bool) : (s.setMode e).st = s.st := rfl
@[simp] theorem State.setMode_key (e : Bool) : (s.setMode e).key = s.key := rfl
@[simp] theorem State.setMode_vram (e : Bool) : (s.setMode e).vram = s.vram := rfl
@[simp] theorem State.setMode_ext (e : Bool) : (s.setMode e).ext = e := rfl
@[simp] theorem State.setMode_mem (e : Bool) : (s.setMode e).mem = s.mem := rfl
@[simp] theorem State.setMode_ir (e : Bool) : (s.setMode e).ir = s.ir := rfl
@[simp] theorem State.setMode_audio (e : Bool) : (s.setMode e).audio = s.audio := rfl
@[simp] theorem State.setMode_status (e : Bool) : (s.setMode e).status = s.status := rfl
@[simp] theorem State.setMode_clockHz (e : Bool) : (s.setMode e).clockHz = s.clockHz := rfl
@[simp] theorem State.setMode_lastT (e : Bool) : (s.setMode e).lastT = s.lastT := rfl
@[simp] theorem State.setMode_fonts (e : Bool) : (s.setMode e).fonts = s.fonts := rfl
@[simp] theorem State.setMode_config (e : Bool) : (s.setMode e).config = s.config := rfl
@[simp] theorem State.setMode_burst (e : Bool) : (s.setMode e).burst = s.burst := rfl
@[simp] theorem State.setMode_draws (e : Bool) : (s.setMode e).draws = s.draws := rfl
@[simp] theorem State.setMode_agenda (e : Bool) : (s.setMode e).agenda = s.agenda := rfl

/-! ## `setKey` -/

@[simp] theorem State.setKey_v (k : Nat) (down : Bool) : (s.setKey k down).v = s.v := rfl
@[simp] theorem State.setKey_i (k : Nat) (down : Bool) : (s.setKey k down).i = s.i := rfl
@[simp] theorem State.setKey_pc (k : Nat) (down : Bool) : (s.setKey k down).pc = s.pc := rfl
@[simp] theorem State.setKey_stack (k : Nat) (down : Bool) : (s.setKey k down).stack = s.stack := rfl
@[simp] theorem State.setKey_sp (k : Nat) (down : Bool) : (s.setKey k down).sp = s.sp := rfl
@[simp] theorem State.setKey_dt (k : Nat) (down : Bool) : (s.setKey k down).dt = s.dt := rfl
@[simp] theorem State.setKey_st (k : Nat) (down : Bool) : (s.setKey k down).st = s.st := rfl
@[simp] theorem State.setKey_key (k : Nat) (down : Bool) : (s.setKey k down).key = s.key.setIfInBounds k down := rfl
@[simp] theorem State.setKey_vram (k : Nat) (down : Bool) : (s.setKey k down).vram = s.vram := rfl
@[simp] theorem State.setKey_ext (k : Nat) (down : Bool) : (s.setKey k down).ext = s.ext := rfl
@[simp] theorem State.setKey_mem (k : Nat) (down : Bool) : (s.setKey k down).mem = s.mem := rfl
@[simp] theorem State.setKey_ir (k : Nat) (down : Bool) : (s.setKey k down).ir = s.ir := rfl
@[simp] theorem State.setKey_audio (k : Nat) (down : Bool) : (s.setKey k down).audio = s.audio := rfl
@[simp] theorem State.setKey_status (k : Nat) (down : Bool) : (s.setKey k down).status = s.status := rfl
@[simp] theorem State.setKey_clockHz (k : Nat) (down : Bool) : (s.setKey k down).clockHz = s.clockHz := rfl
@[simp] theorem State.setKey_lastT (k : Nat) (down : Bool) : (s.setKey k down).lastT = s.lastT := rfl
@[simp] theorem State.setKey_fonts (k : Nat) (down : Bool) : (s.setKey k down).fonts = s.fonts := rfl
@[simp] theorem State.setKey_config (k : Nat) (down : Bool) : (s.setKey k down).config = s.config := rfl
@[simp] theorem State.setKey_burst (k : Nat) (down : Bool) : (s.setKey k down).burst = s.burst := rfl
@[simp] theorem State.setKey_draws (k : Nat) (down : Bool) : (s.setKey k down).draws = s.draws := rfl
@[simp] theorem State.setKey_agenda (k : Nat) (down : Bool) : (s.setKey k down).agenda = s.agenda := rfl

/-! ## Registers and bytes -/

@[simp] theorem State.reg_setReg_same (x : Reg) (b : Byte) : (s.setReg x b).reg x = b := by
  simp [State.reg]

theorem State.reg_setReg_ne {x r : Reg} (b : Byte) (h : r ≠ x) : (s.setReg x b).reg r = s.reg r := by
  have : x.val ≠ r.val := fun e => h (Fin.ext e.symm)
  simp [State.reg, Vector.getElem_set_ne, this]

theorem State.reg_setReg (x r : Reg) (b : Byte) : (s.setReg x b).reg r = if r = x then b else s.reg r := by
  by_cases h : r = x
  · subst h; simp
  · simp [h, State.reg_setReg_ne]

/-- The flag is what `VF` holds after a flag-writing instruction, whatever its destination (43_alu.md R143). -/
@[simp] theorem State.reg_setRegAndFlag_vf (x : Reg) (b f : Byte) : (s.setRegAndFlag x b f).reg vf = f := by
  simp [State.setRegAndFlag]

theorem State.reg_setRegAndFlag (x r : Reg) (b f : Byte) :
    (s.setRegAndFlag x b f).reg r = if r = vf then f else if r = x then b else s.reg r := by
  rw [State.setRegAndFlag, State.reg_setReg, State.reg_setReg]

@[simp] theorem State.reg_setPc (t : Nat) (x : Reg) : (s.setPc t).reg x = s.reg x := rfl
@[simp] theorem State.reg_audioStep (x : Reg) : s.audioStep.reg x = s.reg x := rfl
@[simp] theorem State.reg_endCycle (x : Reg) : s.endCycle.reg x = s.reg x := rfl
@[simp] theorem State.reg_faulted (f : CycleFault) (x : Reg) : (s.faulted f).reg x = s.reg x := rfl
@[simp] theorem State.byte_setReg (x : Reg) (b : Byte) (a : Nat) : (s.setReg x b).byte a = s.byte a := rfl
@[simp] theorem State.byte_setPc (t a : Nat) : (s.setPc t).byte a = s.byte a := rfl
@[simp] theorem State.byte_audioStep (a : Nat) : s.audioStep.byte a = s.byte a := rfl
@[simp] theorem State.byte_endCycle (a : Nat) : s.endCycle.byte a = s.byte a := rfl
@[simp] theorem State.byte_faulted (f : CycleFault) (a : Nat) : (s.faulted f).byte a = s.byte a := rfl

end Sys2Proof.Machine
end

