-- ==== Sys2Proof/Laws/Ops.lean ====
section
/-! SUPPORT. What each shared operation does: one lemma for each, which proofs cite in place of unfolding it. -/

namespace Sys2Proof.Machine

/-! ## Constants -/

@[simp] theorem memSize_eq : Config.memSize = 4096 := rfl
@[simp] theorem vramSize_eq : Config.vramSize = 1024 := rfl
@[simp] theorem progBase_eq : Config.progBase = 512 := rfl
@[simp] theorem insnBytes_eq : Config.insnBytes = 2 := rfl

/-! ## Program counter -/

theorem pcTarget_toNat (t : Nat) : (pcTarget t).toNat = if t < 4096 then t else 512 := by
  by_cases h : t < 4096
  · have : t < 65536 := by omega
    simp [pcTarget, h, Nat.mod_eq_of_lt this]
  · simp [pcTarget, h]

theorem pcTarget_lt (t : Nat) : (pcTarget t).toNat < Config.memSize := by
  rw [pcTarget_toNat]; show _ < 4096; split <;> omega

theorem pcTarget_of_lt {t : Nat} (h : t < 4096) : (pcTarget t).toNat = t := by
  rw [pcTarget_toNat, if_pos h]

theorem pcTarget_of_ge {t : Nat} (h : 4096 ≤ t) : pcTarget t = 512#16 := by
  unfold pcTarget; rw [if_neg (by show ¬ t < 4096; omega)]

/-! ## Outcomes -/

theorem advance_def (s : State) : advance s = .next s.endCycle := rfl
theorem jumpTo_def (t : Nat) (s : State) : jumpTo t s = .next (s.setPc t).audioStep := rfl
theorem raise_def (f : CycleFault) (s : State) : raise f s = .next (s.faulted f) := rfl

/-- A skip completes at `PC + 4` when its condition holds and else as any instruction. -/
theorem skipIf_def (c : Bool) (s : State) :
    skipIf c s = .next (s.setPc (if c then s.pc.toNat + 4 else s.pc.toNat + 2)).audioStep := by
  cases c <;> rfl

theorem advanceOr_ok (s t : State) : advanceOr s (.ok t) = .next t.endCycle := rfl
theorem advanceOr_error (s : State) (f : CycleFault) : advanceOr s (.error f) = .next (s.faulted f) := rfl

/-! ## Address register -/

theorem State.setI_of_lt (s : State) {v : Nat} (h : v < 4096) : s.setI v = .ok { s with i := BitVec.ofNat 16 v } := by
  unfold State.setI; rw [if_pos h]

theorem State.setI_of_ge (s : State) {v : Nat} (h : 4096 ≤ v) : s.setI v = .error (.indexOutOfRange v s.pc s.ir) := by
  unfold State.setI; rw [if_neg (by show ¬ v < 4096; omega)]

/-! ## Call stack -/

theorem State.push_of_lt (s : State) (v : Word) (h : s.sp < s.config.stackDepth) :
    s.push v = .ok { s with stack := Store.write s.stack s.sp v, sp := s.sp + 1 } := by
  unfold State.push; rw [if_pos h]

theorem State.push_of_ge (s : State) (v : Word) (h : s.config.stackDepth ≤ s.sp) :
    s.push v = .error (.stackOverflow s.pc s.ir) := by
  unfold State.push; rw [if_neg (by omega)]

theorem State.pop_of_pos (s : State) (h : 0 < s.sp) :
    s.pop = .ok (Store.read s.stack (s.sp - 1), { s with sp := s.sp - 1 }) := by
  unfold State.pop; rw [if_neg (by omega)]

theorem State.pop_of_zero (s : State) (h : s.sp = 0) : s.pop = .error (.stackUnderflow s.pc s.ir) := by
  unfold State.pop; rw [if_pos h]

/-! ## Memory blocks -/

theorem blockOutOfRange_eq_false {a n : Nat} (h : n = 0 ∨ a + n ≤ 4096) : blockOutOfRange a n = false := by
  unfold blockOutOfRange
  simp only [Bool.and_eq_false_iff, decide_eq_false_iff_not]
  show ¬0 < n ∨ ¬4096 < a + n
  omega

theorem blockOutOfRange_eq_true {a n : Nat} (hn : 0 < n) (h : 4096 < a + n) : blockOutOfRange a n = true := by
  unfold blockOutOfRange
  simp only [Bool.and_eq_true, decide_eq_true_eq]
  exact ⟨hn, h⟩

theorem State.readBlock_in (s : State) {a n : Nat} (h : a + n ≤ 4096) :
    s.readBlock a n = .ok (Store.readList (w := 8) s.mem a n) := by
  unfold State.readBlock; rw [blockOutOfRange_eq_false (.inr h)]; rfl

theorem State.readBlock_out (s : State) {a n : Nat} (hn : 0 < n) (h : 4096 < a + n) :
    s.readBlock a n = .error (.memAccessOutOfRange 4096 s.pc s.ir) := by
  unfold State.readBlock; rw [blockOutOfRange_eq_true hn h]; rfl

theorem State.writeBlock_in (s : State) {a : Nat} {bs : List Byte} (h : a + bs.length ≤ 4096) :
    s.writeBlock a bs = .ok { s with mem := Store.writeList (w := 8) s.mem a bs } := by
  unfold State.writeBlock; rw [blockOutOfRange_eq_false (.inr h)]; rfl

theorem State.writeBlock_out (s : State) {a : Nat} {bs : List Byte} (hn : 0 < bs.length) (h : 4096 < a + bs.length) :
    s.writeBlock a bs = .error (.memAccessOutOfRange 4096 s.pc s.ir) := by
  unfold State.writeBlock; rw [blockOutOfRange_eq_true hn h]; rfl

/-- A block write inside memory keeps its canonical form. -/
theorem Memory.wf_writeList {m : Memory} (a : Nat) (bs : List Byte) (h : a + bs.length ≤ Config.memSize)
    (hm : Memory.wf m = true) : Memory.wf (Store.writeList (w := 8) m a bs) = true :=
  Store.wf_writeList bs m a h hm

/-- A byte write inside memory keeps its canonical form. -/
theorem Memory.wf_write {m : Memory} (a : Nat) (b : Byte) (h : a < Config.memSize) (hm : Memory.wf m = true) :
    Memory.wf (Store.write (w := 8) m a b) = true := Store.wf_write m b h hm

theorem State.putWord_wf (s : State) (a : Nat) (hi lo : Byte) (h : a + 1 < Config.memSize) (hm : Memory.wf s.mem = true) :
    Memory.wf (s.putWord a hi lo).mem = true :=
  Memory.wf_write _ _ h (Memory.wf_write _ _ (by omega) hm)

/-! ## Register blocks -/

@[simp] theorem State.regsUpTo_length (s : State) (x : Reg) : (s.regsUpTo x).length = x.val + 1 := by
  have := x.isLt
  simp [State.regsUpTo]

theorem State.regsUpTo_getElem (s : State) (x : Reg) (j : Nat) (h : j < (s.regsUpTo x).length) :
    (s.regsUpTo x)[j] = s.reg ⟨j, by have := x.isLt; simp at h; omega⟩ := by
  simp [State.regsUpTo, State.reg]

theorem loadRegs_getElem (bs : List Byte) : ∀ (v : Vector Byte 16) (j k : Nat) (hk : k < 16),
    (loadRegs v j bs)[k] = if h : j ≤ k ∧ k < j + bs.length then bs[k - j]'(by omega) else v[k] := by
  induction bs with
  | nil => intro v j k hk; simp [loadRegs]
  | cons b rest ih =>
    intro v j k hk
    rw [loadRegs, ih]
    simp only [List.length_cons]
    rcases Nat.lt_trichotomy k j with h | h | h
    · rw [dif_neg (by omega), dif_neg (by omega)]
      simp [show j ≠ k by omega]
    · subst h
      rw [dif_neg (by omega), dif_pos (by omega)]
      simp
    · by_cases hb : k < j + 1 + rest.length
      · rw [dif_pos (by omega), dif_pos (by omega)]
        obtain ⟨d, rfl⟩ : ∃ d, k = j + 1 + d := ⟨k - (j + 1), by omega⟩
        simp [show j + 1 + d - j = d + 1 by omega]
      · rw [dif_neg (by omega), dif_neg (by omega)]
        simp [show j ≠ k by omega]

@[simp] theorem bcdDigits_length (b : Byte) : (bcdDigits b).length = 3 := rfl

/-! ## Keys -/

theorem State.keyDown_of_lt (s : State) {k : Nat} (h : k < 16) : s.keyDown k = s.key[k] := by
  simp [State.keyDown, h]

theorem State.keyDown_of_ge (s : State) {k : Nat} (h : 16 ≤ k) : s.keyDown k = false := by
  simp [State.keyDown, show ¬ k < 16 by omega]

/-- The least key is down, and no smaller one is (46_keys_timers.md R193). -/
theorem State.leastKey_eq_some (s : State) (k : Nat) :
    s.leastKey = some k ↔ s.keyDown k = true ∧ ∀ j < k, s.keyDown j = false := by
  simp only [State.leastKey, List.findIdx?_eq_some_iff_getElem, id_eq, State.keyDown]
  constructor
  · rintro ⟨h, hk, hj⟩
    simp only [Vector.length_toList] at h
    refine ⟨by simpa [h] using hk, fun j hjk => ?_⟩
    have := hj j hjk
    simpa [show j < 16 by omega] using this
  · rintro ⟨hk, hj⟩
    by_cases h : k < 16
    · refine ⟨by simpa using h, by simpa [h] using hk, fun j hjk => ?_⟩
      have := hj j hjk
      simpa [show j < 16 by omega] using this
    · simp [h] at hk

theorem State.leastKey_eq_none (s : State) : s.leastKey = none ↔ ∀ k, s.keyDown k = false := by
  simp only [State.leastKey, List.findIdx?_eq_none_iff, id_eq, State.keyDown]
  constructor
  · intro h k
    by_cases hk : k < 16
    · simpa [hk] using h s.key[k] (by simp)
    · simp [hk]
  · intro h b hb
    obtain ⟨k, hk, rfl⟩ := List.getElem_of_mem hb
    simp only [Vector.length_toList] at hk
    simpa [hk] using h k

/-! ## The clock rate (40_cycle_and_scheduler.md R90) -/

theorem State.setClockHz_of_pos (s : State) {hz : Rat} (h : 0 < hz) :
    s.setClockHz (.finite hz) = { s with clockHz := some hz } := if_pos (decide_eq_true h)

theorem State.setClockHz_of_nonpos (s : State) {hz : Rat} (h : hz ≤ 0) : s.setClockHz (.finite hz) = s :=
  if_neg (by simpa [Rate.accepted] using h)

@[simp] theorem State.setClockHz_notFinite (s : State) : s.setClockHz .notFinite = s := rfl

/-! ## Timers -/

theorem Timer.sound_zero : Timer.Sound { value := 0#8, phase := 0 } := ⟨le_refl _, fun _ => rfl⟩

theorem Timer.set_sound {t : Timer} (v : Byte) (h : t.Sound) : (t.set v).Sound := by
  unfold Timer.set
  split
  · exact Timer.sound_zero
  · next hv =>
    split
    · exact ⟨le_refl _, fun _ => rfl⟩
    · exact ⟨h.1, fun hz => absurd hz hv⟩

theorem Timer.tick_sound {t : Timer} (h : t.Sound) : t.tick.Sound := by
  unfold Timer.tick
  split
  · exact h
  · next h0 =>
    split
    · exact Timer.sound_zero
    · next h1 =>
      refine ⟨h.1, fun hz => absurd ?_ h1⟩
      have hz : t.value - 1#8 = 0#8 := hz
      exact BitVec.sub_eq_iff_eq_add.mp hz |>.trans (by simp)

theorem Timer.elapse_sound {t : Timer} (d : Rat) (h : t.Sound) : (t.elapse d).Sound := by
  unfold Timer.elapse
  split
  · exact h
  · next h0 =>
    push Not at h0
    dsimp only
    split
    · exact Timer.sound_zero
    · next hd =>
      refine ⟨add_nonneg h.1 h0.2, fun hz => absurd (congrArg BitVec.toNat hz) ?_⟩
      have := t.value.isLt
      simp only [BitVec.toNat_ofNat]
      omega

/-! ## Display -/

theorem activeWidth_pos (e : Bool) : 0 < activeWidth e := by cases e <;> decide
theorem activeHeight_pos (e : Bool) : 0 < activeHeight e := by cases e <;> decide
theorem activeWidth_le (e : Bool) : activeWidth e ≤ 128 := by cases e <;> decide
theorem activeHeight_le (e : Bool) : activeHeight e ≤ 64 := by cases e <;> decide

theorem pixelByte_lt {x y : Nat} (hx : x < 128) (hy : y < 64) : pixelByte x y < Config.vramSize := by
  show 16 * y + x / 8 < 1024; omega

end Sys2Proof.Machine
end

