-- ==== Sys2Proof/Laws/Draw.lean ====
section
/-! SUPPORT. What toggling a pixel does to every pixel (20_memory.md R49, 45_draw.md R173). -/

namespace Sys2Proof.Machine

/-- Two pixels of the bitmap lie in one byte and on one bit only when they are the same pixel. -/
theorem pixel_eq_of_place {x y x' y' : Nat} (hx : x < 128) (hx' : x' < 128)
    (hb : pixelByte x' y' = pixelByte x y) (hm : x' % 8 = x % 8) : x' = x ∧ y' = y := by
  have hb : 16 * y' + x' / 8 = 16 * y + x / 8 := hb
  omega

/-- A toggle changes the pixel it names and no other. -/
theorem pixelLit_toggle (vram : Store 8) {x y x' y' : Nat} (hx : x < 128) (hx' : x' < 128) :
    pixelLit (pixelToggle vram x y) x' y' =
      (pixelLit vram x' y' ^^ decide (x' = x ∧ y' = y)) := by
  unfold pixelLit pixelToggle
  rw [Store.read_write]
  by_cases hb : pixelByte x' y' = pixelByte x y
  · rw [if_pos hb, hb, BitVec.getLsbD_xor, pixelMask, BitVec.getLsbD_twoPow]
    congr 1
    rw [Bool.eq_iff_iff]
    simp only [Bool.and_eq_true, decide_eq_true_eq]
    constructor
    · rintro ⟨-, h⟩
      exact pixel_eq_of_place hx hx' hb (by omega)
    · rintro ⟨rfl, rfl⟩
      exact ⟨by omega, rfl⟩
  · rw [if_neg hb]
    have : ¬(x' = x ∧ y' = y) := fun h => hb (by rw [h.1, h.2])
    simp [this]

/-- A toggle inside the bitmap keeps the canonical form of `VRAM`. -/
theorem pixelToggle_wf {vram : Store 8} {x y : Nat} (hx : x < 128) (hy : y < 64)
    (h : Store.wf Config.vramSize vram = true) : Store.wf Config.vramSize (pixelToggle vram x y) = true :=
  Store.wf_write _ _ (pixelByte_lt hx hy) h

/-- A row drawn inside the bitmap keeps the canonical form of `VRAM`. -/
theorem drawRow_wf (ext : Bool) (x y bits nbits : Nat) {acc : Store 8 × Bool}
    (h : Store.wf Config.vramSize acc.1 = true) :
    Store.wf Config.vramSize (drawRow ext x y bits nbits acc).1 = true := by
  unfold drawRow
  refine List.foldlRecOn (List.range nbits) _ (motive := fun (a : Store 8 × Bool) => Store.wf Config.vramSize a.1 = true) h ?_
  intro acc hacc i _
  split
  · exact pixelToggle_wf
      (lt_of_lt_of_le (Nat.mod_lt _ (activeWidth_pos ext)) (activeWidth_le ext))
      (lt_of_lt_of_le (Nat.mod_lt _ (activeHeight_pos ext)) (activeHeight_le ext)) hacc
  · exact hacc

/-- A sprite drawn keeps the canonical form of `VRAM`. -/
theorem State.drawSprite_wf (s : State) (x y : Nat) (n : Nibble) (h : Store.wf Config.vramSize s.vram = true) :
    Store.wf Config.vramSize (s.drawSprite x y n).1 = true := by
  unfold State.drawSprite
  refine List.foldlRecOn (List.range _) _ (motive := fun (a : Store 8 × Bool) => Store.wf Config.vramSize a.1 = true) h ?_
  intro acc hacc r _
  exact drawRow_wf _ _ _ _ _ hacc

end Sys2Proof.Machine
end

