-- ==== Sys2Proof/Laws/PerInstr.lean ====
section
/-! SUPPORT. Statements made instruction by instruction: decoding an encoded instruction gives it back. -/

namespace Sys2Proof.Laws.RoundTrip

/-- The word of an instruction a machine has decodes to that instruction, with every operand (30_encoding.md R61, R66). -/
def Statement (i : Instr) : Prop :=
  ∀ modeOps : Bool, i.wellFormed modeOps = true → decodeWord modeOps (encode i) = .ok i

theorem cls : Statement .cls := by
  intro m h
  simp_all [Instr.wellFormed, encode, decodeWord, decodeFamily0]

theorem ret : Statement .ret := by
  intro m h
  simp_all [Instr.wellFormed, encode, decodeWord, decodeFamily0]

theorem low : Statement .low := by
  intro m h
  simp_all [Instr.wellFormed, encode, decodeWord, decodeFamily0]

theorem high : Statement .high := by
  intro m h
  simp_all [Instr.wellFormed, encode, decodeWord, decodeFamily0]

theorem jp (nnn : Addr) : Statement (.jp nnn) := by
  intro m h
  simp_all [Instr.wellFormed, encode, decodeWord]

theorem call (nnn : Addr) : Statement (.call nnn) := by
  intro m h
  simp_all [Instr.wellFormed, encode, decodeWord]

theorem seImm (x : Reg) (kk : Byte) : Statement (.seImm x kk) := by
  intro m h
  simp_all [Instr.wellFormed, encode, decodeWord]

theorem sneImm (x : Reg) (kk : Byte) : Statement (.sneImm x kk) := by
  intro m h
  simp_all [Instr.wellFormed, encode, decodeWord]

theorem seReg (x y : Reg) (n : Nibble) : Statement (.seReg x y n) := by
  intro m h
  simp_all [Instr.wellFormed, encode, decodeWord]

theorem ldImm (x : Reg) (kk : Byte) : Statement (.ldImm x kk) := by
  intro m h
  simp_all [Instr.wellFormed, encode, decodeWord]

theorem addImm (x : Reg) (kk : Byte) : Statement (.addImm x kk) := by
  intro m h
  simp_all [Instr.wellFormed, encode, decodeWord]

theorem ldReg (x y : Reg) : Statement (.ldReg x y) := by
  intro m h
  simp_all [Instr.wellFormed, encode, decodeWord, decodeFamily8]

theorem orReg (x y : Reg) : Statement (.orReg x y) := by
  intro m h
  simp_all [Instr.wellFormed, encode, decodeWord, decodeFamily8]

theorem andReg (x y : Reg) : Statement (.andReg x y) := by
  intro m h
  simp_all [Instr.wellFormed, encode, decodeWord, decodeFamily8]

theorem xorReg (x y : Reg) : Statement (.xorReg x y) := by
  intro m h
  simp_all [Instr.wellFormed, encode, decodeWord, decodeFamily8]

theorem addReg (x y : Reg) : Statement (.addReg x y) := by
  intro m h
  simp_all [Instr.wellFormed, encode, decodeWord, decodeFamily8]

theorem sub (x y : Reg) : Statement (.sub x y) := by
  intro m h
  simp_all [Instr.wellFormed, encode, decodeWord, decodeFamily8]

theorem shr (x y : Reg) : Statement (.shr x y) := by
  intro m h
  simp_all [Instr.wellFormed, encode, decodeWord, decodeFamily8]

theorem subn (x y : Reg) : Statement (.subn x y) := by
  intro m h
  simp_all [Instr.wellFormed, encode, decodeWord, decodeFamily8]

theorem shl (x y : Reg) : Statement (.shl x y) := by
  intro m h
  simp_all [Instr.wellFormed, encode, decodeWord, decodeFamily8]

theorem sneReg (x y : Reg) (n : Nibble) : Statement (.sneReg x y n) := by
  intro m h
  simp_all [Instr.wellFormed, encode, decodeWord]

theorem ldI (nnn : Addr) : Statement (.ldI nnn) := by
  intro m h
  simp_all [Instr.wellFormed, encode, decodeWord]

theorem jpV0 (nnn : Addr) : Statement (.jpV0 nnn) := by
  intro m h
  simp_all [Instr.wellFormed, encode, decodeWord]

theorem rnd (x : Reg) (kk : Byte) : Statement (.rnd x kk) := by
  intro m h
  simp_all [Instr.wellFormed, encode, decodeWord]

theorem drw (x y : Reg) (n : Nibble) : Statement (.drw x y n) := by
  intro m h
  simp_all [Instr.wellFormed, encode, decodeWord]

theorem skp (x : Reg) : Statement (.skp x) := by
  intro m h
  simp_all [Instr.wellFormed, encode, decodeWord, decodeFamilyE]

theorem sknp (x : Reg) : Statement (.sknp x) := by
  intro m h
  simp_all [Instr.wellFormed, encode, decodeWord, decodeFamilyE]

theorem ldVxDt (x : Reg) : Statement (.ldVxDt x) := by
  intro m h
  simp_all [Instr.wellFormed, encode, decodeWord, decodeFamilyF]

theorem ldVxK (x : Reg) : Statement (.ldVxK x) := by
  intro m h
  simp_all [Instr.wellFormed, encode, decodeWord, decodeFamilyF]

theorem ldDtVx (x : Reg) : Statement (.ldDtVx x) := by
  intro m h
  simp_all [Instr.wellFormed, encode, decodeWord, decodeFamilyF]

theorem ldStVx (x : Reg) : Statement (.ldStVx x) := by
  intro m h
  simp_all [Instr.wellFormed, encode, decodeWord, decodeFamilyF]

theorem addI (x : Reg) : Statement (.addI x) := by
  intro m h
  simp_all [Instr.wellFormed, encode, decodeWord, decodeFamilyF]

theorem ldF (x : Reg) : Statement (.ldF x) := by
  intro m h
  simp_all [Instr.wellFormed, encode, decodeWord, decodeFamilyF]

theorem ldB (x : Reg) : Statement (.ldB x) := by
  intro m h
  simp_all [Instr.wellFormed, encode, decodeWord, decodeFamilyF]

theorem ldStore (x : Reg) : Statement (.ldStore x) := by
  intro m h
  simp_all [Instr.wellFormed, encode, decodeWord, decodeFamilyF]

theorem ldLoad (x : Reg) : Statement (.ldLoad x) := by
  intro m h
  simp_all [Instr.wellFormed, encode, decodeWord, decodeFamilyF]

end Sys2Proof.Laws.RoundTrip
end

