-- ==== Sys2Proof/Laws/Step.lean ====
section
/-! SUPPORT. What one step can do: every way `step` answers, said once. -/

namespace Sys2Proof.Machine

/-! ## The CPU's cycle -/

theorem cycle_fetchFault (s : State) (h : 4095 ≤ s.pc.toNat) :
    cycle s = .next (s.faulted (.fetchOutOfRange s.pc)) := by
  have : s.fetchOutOfRange = true := by simp [State.fetchOutOfRange]; omega
  simp [cycle, this, raise_def]

theorem cycle_instr (s : State) {i : Instr} (h : s.pc.toNat < 4095)
    (hd : decodeWord s.config.modeOps s.fetchWord = .ok i) :
    cycle s = exec i { s with ir := s.fetchWord } := by
  have : s.fetchOutOfRange = false := by simp [State.fetchOutOfRange]; omega
  simp [cycle, this, hd]

theorem cycle_miss (s : State) {e : DecodeError} (h : s.pc.toNat < 4095)
    (hd : decodeWord s.config.modeOps s.fetchWord = .error e) :
    cycle s = .next ({ s with ir := s.fetchWord } : State).endCycle := by
  have : s.fetchOutOfRange = false := by simp [State.fetchOutOfRange]; omega
  simp [cycle, this, hd, decodeMiss, advance_def]

/-- The three cases of a cycle. -/
theorem cycle_cases (s : State) :
    (4095 ≤ s.pc.toNat ∧ cycle s = .next (s.faulted (.fetchOutOfRange s.pc))) ∨
    (s.pc.toNat < 4095 ∧ ∃ i, decodeWord s.config.modeOps s.fetchWord = .ok i ∧
      cycle s = exec i { s with ir := s.fetchWord }) ∨
    (s.pc.toNat < 4095 ∧ ∃ e, decodeWord s.config.modeOps s.fetchWord = .error e ∧
      cycle s = .next ({ s with ir := s.fetchWord } : State).endCycle) := by
  by_cases h : 4095 ≤ s.pc.toNat
  · exact .inl ⟨h, cycle_fetchFault s h⟩
  · have h : s.pc.toNat < 4095 := by omega
    cases hd : decodeWord s.config.modeOps s.fetchWord with
    | ok i => exact .inr (.inl ⟨h, i, rfl, cycle_instr s h hd⟩)
    | error e => exact .inr (.inr ⟨h, e, rfl, cycle_miss s h hd⟩)

/-! ## A step -/

theorem step_cpu (s : State) {rest : List Event} (h : s.cpuRuns rest) : step s = cycle (s.atTurn rest) := by
  simp [step, takeTurn, h.1, cpuTurn, h.2, State.atTurn]

theorem step_other (s : State) {e : Event} {rest : List Event} (h : s.turn = .other e rest) :
    step s = .next (({ s with agenda := rest } : State).external e) := by
  simp [step, takeTurn, h]

/-- Every way a step answers: the CPU runs a cycle, a stopped CPU passes or stands still, or another agent acts. -/
theorem step_cases (s : State) :
    (∃ rest, s.cpuRuns rest ∧ step s = cycle (s.atTurn rest)) ∨
    (∃ rest f, s.turn = .cpu rest ∧ s.status = .faulted f ∧ s.agenda ≠ [] ∧ step s = .next { s with agenda := rest }) ∨
    (∃ f, s.status = .faulted f ∧ s.agenda = [] ∧ step s = .fault (.stopped f)) ∨
    (∃ e rest, s.turn = .other e rest ∧ step s = .next (({ s with agenda := rest } : State).external e)) := by
  cases ht : s.turn with
  | cpu rest =>
    cases hs : s.status with
    | running => exact .inl ⟨rest, ⟨ht, hs⟩, step_cpu s ⟨ht, hs⟩⟩
    | faulted f =>
      by_cases ha : s.agenda = []
      · exact .inr (.inr (.inl ⟨f, rfl, ha, by simp [step, takeTurn, ht, cpuTurn, hs, ha]⟩))
      · exact .inr (.inl ⟨rest, f, rfl, rfl, ha, by simp [step, takeTurn, ht, cpuTurn, hs, ha]⟩)
  | other e rest => exact .inr (.inr (.inr ⟨e, rest, rfl, step_other s ht⟩))

/-! ## The end of a cycle, in the terms claims use -/

theorem State.setPc_written (s : State) (t : Nat) : (s.setPc t).PcWritten t := by
  unfold State.PcWritten
  rw [State.setPc, pcTarget_toNat]
  congr 1
  exact propext (by omega)

theorem State.audioStep_iff (s : State) : s.audioStep.audio = true ↔ 0 < s.audioStep.st.value.toNat := by
  show (s.st.value != 0#8) = true ↔ 0 < s.st.value.toNat
  rw [bne_iff_ne, ne_eq, ← BitVec.toNat_inj]
  simp [Nat.pos_iff_ne_zero]

theorem State.jump_endedAt (s : State) (t : Nat) : (s.setPc t).audioStep.EndedAt t :=
  ⟨s.setPc_written t, State.audioStep_iff _⟩

theorem State.endCycle_endedAt (s : State) : s.endCycle.EndedAt (s.pc.toNat + 2) := s.jump_endedAt _

/-! ## The canonical form of memory after reset and after a load -/

theorem reset_mem_wf : Memory.wf State.reset.mem = true := rfl

theorem loadedMemory_wf (f : Fonts) (rom : List Byte) (hstd : f.std.length = Config.fontStdLen)
    (hext : f.ext.length = Config.fontExtLen) : Memory.wf (loadedMemory f rom) = true := by
  refine Memory.wf_writeList _ _ ?_ (Memory.wf_writeList _ _ ?_ (Memory.wf_writeList _ _ ?_ rfl))
  · rw [List.length_take]; show 512 + min 3584 _ ≤ 4096; omega
  · rw [hext]; decide
  · rw [hstd]; decide

end Sys2Proof.Machine
end

