-- ==== Sys2Proof/Tests/Slice0.lean ====
section
/-! SUPPORT. Tests. Each expected result is taken from spec/95_test_vectors.md (the vector's number stands in the test's
comment) or from the rule named, never from the model. The witnesses show that the hypotheses of each statement can be met. -/

namespace Sys2Proof.Tests

open Sys2Proof Sys2Proof.Machine

/-! ## Well-formedness: the one check, and the ill-formed terms it refuses -/

theorem test_wellFormed_refuses_low : Instr.wellFormed false .low = false := by decide

theorem test_wellFormed_refuses_high : Instr.wellFormed false .high = false := by decide

theorem test_wellFormed_accepts : Instr.wellFormed true .low = true ∧ Instr.wellFormed false .cls = true := by decide

/-- R67: without `MODE_OPS` the two words are decode misses. -/
theorem test_decode_misses_without_mode_ops :
    decodeWord false 0x00FE#16 = .error (.miss 0x00FE#16) ∧ decodeWord false 0x00FF#16 = .error (.miss 0x00FF#16) := by decide

/-! ## Decoding: words written out from the formats and the opcode map of 30_encoding.md R61, R62, R66 -/

theorem test_decode_family_0 :
    [0x00E0, 0x00EE, 0x00FE, 0x00FF].map (decodeTableWord 16) = [some .cls, some .ret, some .low, some .high] := by decide

/-- `0001 1010 1011 1100`, `0010 …`, `1010 …`, `1011 …`: the address is the last twelve bits. -/
theorem test_decode_addresses :
    [0b0001101010111100, 0b0010101010111100, 0b1010101010111100, 0b1011101010111100].map (decodeTableWord 16) =
      [some (.jp 0xABC#12), some (.call 0xABC#12), some (.ldI 0xABC#12), some (.jpV0 0xABC#12)] := by decide

/-- `fam x kk`: `0011 0011 0001 1111` is `SE V3,0x1F`. -/
theorem test_decode_immediates :
    [0b0011001100011111, 0x431F, 0x631F, 0x731F, 0xC31F].map (decodeTableWord 16) =
      [some (.seImm 3 0x1F#8), some (.sneImm 3 0x1F#8), some (.ldImm 3 0x1F#8), some (.addImm 3 0x1F#8),
       some (.rnd 3 0x1F#8)] := by decide

/-- `fam x y n`: `1101 0001 0010 0101` is `DRW V1,V2,5`. -/
theorem test_decode_two_registers_and_nibble :
    [0b1101000100100101, 0x5120, 0x512F, 0x9AB7].map (decodeTableWord 16) =
      [some (.drw 1 2 5#4), some (.seReg 1 2 0#4), some (.seReg 1 2 0xF#4), some (.sneReg 0xA 0xB 7#4)] := by decide

theorem test_decode_family_8 :
    [0x8AB0, 0x8AB1, 0x8AB2, 0x8AB3, 0x8AB4, 0x8AB5, 0x8AB6, 0x8AB7, 0x8ABE].map (decodeTableWord 16) =
      [some (.ldReg 0xA 0xB), some (.orReg 0xA 0xB), some (.andReg 0xA 0xB), some (.xorReg 0xA 0xB), some (.addReg 0xA 0xB),
       some (.sub 0xA 0xB), some (.shr 0xA 0xB), some (.subn 0xA 0xB), some (.shl 0xA 0xB)] := by decide

theorem test_decode_families_E_and_F :
    [0xE79E, 0xE7A1, 0xF707, 0xF70A, 0xF715, 0xF718, 0xF71E, 0xF729, 0xF733, 0xF755, 0xF765].map (decodeTableWord 16) =
      [some (.skp 7), some (.sknp 7), some (.ldVxDt 7), some (.ldVxK 7), some (.ldDtVx 7), some (.ldStVx 7), some (.addI 7),
       some (.ldF 7), some (.ldB 7), some (.ldStore 7), some (.ldLoad 7)] := by decide

/-- Vectors S5 to S9: reserved words are no neighbour's. -/
theorem test_decode_misses :
    [0x0000, 0x00FD, 0x8129, 0xE19F, 0xF130].map (decodeTableWord 16) = [none, none, none, none, none] := by decide

/-- The mnemonics of the opcode map are those of the constructors, in the map's order. -/
theorem test_opcode_map_has_36_rows : opcodeMap.length = 36 ∧ (opcodeMap.map (·.mnemonic)).Nodup := by decide

/-! ## Helpers: the state one step after a word placed where it is fetched -/

def ran (w : Nat) (s : State) : Option State :=
  match step (s.withFetchWord 16 w) with
  | .next t => some t
  | .fault _ => none
  | .refused _ => none

def withRegs (l : List (Nat × Byte)) : State :=
  { State.reset with v := l.foldl (fun v p => v.setIfInBounds p.1 p.2) State.reset.v }

def withKeys (l : List Nat) (s : State) : State := { s with key := l.foldl (fun v k => v.setIfInBounds k true) s.key }

def regsAfter (w : Nat) (s : State) (l : List Reg) : Option (List Byte) := (ran w s).map fun t => l.map t.reg

def pcAfter (w : Nat) (s : State) : Option Word := (ran w s).map (·.pc)

def statusAfter (w : Nat) (s : State) : Option Status := (ran w s).map (·.status)

def bytesAfter (w : Nat) (s : State) (l : List Nat) : Option (List Byte) := (ran w s).map fun t => l.map t.byte

def vramAfter (w : Nat) (s : State) : Option (Store 8 × Byte) := (ran w s).map fun t => (t.vram, t.reg vf)

/-! ## System and display -/

/-- T3, S1. -/
theorem test_cls : (ran 0x00E0 { State.reset with vram := [(0, 0xFF#8), (1023, 0x01#8)] }).map (fun t => (t.vram, t.pc, t.ir)) =
    some ([], 514#16, 0x00E0#16) := by decide

/-- S2. -/
theorem test_high : (ran 0x00FF { State.reset with vram := [(0, 0x80#8)] }).map (fun t => (t.ext, t.vram)) =
    some (true, [(0, 0x80#8)]) := by decide

/-- S3. -/
theorem test_low : (ran 0x00FE { State.reset with ext := true }).map (·.ext) = some false := by decide

/-- S5, S10. -/
theorem test_decode_miss : pcAfter 0x0000 State.reset = some 0x202#16 ∧
    pcAfter 0x0000 { State.reset with pc := 0xFFE#16 } = some 512#16 := by decide

/-! ## Control transfer -/

/-- B7, B9. -/
theorem test_ret : (ran 0x00EE { State.reset with sp := 1, stack := [(0, 0x456#16)] }).map (fun t => (t.pc, t.sp)) =
      some (0x458#16, 0) ∧
    pcAfter 0x00EE { State.reset with sp := 1, stack := [(0, 0xFFE#16)] } = some 512#16 := by decide

/-- B8. -/
theorem test_ret_empty : statusAfter 0x00EE State.reset = some (.faulted (.stackUnderflow 0x200#16 0x00EE#16)) := by decide

/-- B4, B5. -/
theorem test_call : (ran 0x2ABC State.reset).map (fun t => (t.pc, t.sp, t.stack)) = some (0xABC#16, 1, [(0, 0x200#16)]) ∧
    (ran 0x2ABC { State.reset with sp := 255 }).map (fun t => (t.sp, t.stack)) = some (256, [(255, 0x200#16)]) := by decide

/-- B6. -/
theorem test_call_full : (ran 0x2ABC { State.reset with sp := 256 }).map (fun t => (t.status, t.pc, t.sp)) =
    some (.faulted (.stackOverflow 0x200#16 0x2ABC#16), 0x200#16, 256) := by decide

/-- B1, B2. -/
theorem test_jp : pcAfter 0x1ABC State.reset = some 0xABC#16 ∧ pcAfter 0x1200 State.reset = some 0x200#16 := by decide

/-- B3: the fetch at the top of memory faults. -/
theorem test_fetch_at_top : step { State.reset with pc := 0xFFF#16 } =
    .next { State.reset with pc := 0xFFF#16, status := .faulted (.fetchOutOfRange 4095#16) } := rfl

/-- B10, B11. -/
theorem test_se_imm : pcAfter 0x331F (withRegs [(3, 0x1F#8)]) = some 0x204#16 ∧
    pcAfter 0x331F (withRegs [(3, 0x1E#8)]) = some 0x202#16 := by decide

/-- B22: a skip past the top of memory. -/
theorem test_skip_wraps : pcAfter 0x3000 { State.reset with pc := 0xFFC#16 } = some 512#16 := by decide

/-- B12, B13. -/
theorem test_sne_imm : pcAfter 0x431F (withRegs [(3, 0x1F#8)]) = some 0x202#16 ∧
    pcAfter 0x431F State.reset = some 0x204#16 := by decide

/-- B15, B16. -/
theorem test_se_reg : pcAfter 0x512F (withRegs [(1, 7#8), (2, 7#8)]) = some 0x204#16 ∧
    pcAfter 0x5120 (withRegs [(1, 7#8), (2, 8#8)]) = some 0x202#16 := by decide

/-- B17, B18. -/
theorem test_sne_reg : pcAfter 0x9120 (withRegs [(1, 7#8), (2, 8#8)]) = some 0x204#16 ∧
    pcAfter 0x9AA0 State.reset = some 0x202#16 := by decide

/-- B19, B20. -/
theorem test_jp_v0 : pcAfter 0xB300 (withRegs [(0, 0x10#8)]) = some 0x310#16 ∧
    pcAfter 0xBFFF (withRegs [(0, 0xFF#8)]) = some 512#16 := by decide

/-! ## Load, arithmetic, logic, shift, random -/

/-- A1, A2. -/
theorem test_ld_imm : regsAfter 0x6AFF State.reset [0xA] = some [0xFF#8] ∧
    regsAfter 0x6F07 State.reset [0xF] = some [7#8] := by decide

/-- A3: no carry. -/
theorem test_add_imm : regsAfter 0x7302 (withRegs [(3, 0xFF#8)]) [3, 0xF] = some [0x01#8, 0#8] := by decide

/-- A5. -/
theorem test_ld_reg : regsAfter 0x8120 (withRegs [(2, 0x5A#8)]) [1, 2] = some [0x5A#8, 0x5A#8] := by decide

/-- A6. -/
theorem test_or : regsAfter 0x8121 (withRegs [(1, 0xF0#8), (2, 0x3C#8), (15, 1#8)]) [1, 2, 0xF] =
    some [0xFC#8, 0x3C#8, 1#8] := by decide

/-- A7. -/
theorem test_and : regsAfter 0x8122 (withRegs [(1, 0xF0#8), (2, 0x3C#8), (15, 1#8)]) [1, 2, 0xF] =
    some [0x30#8, 0x3C#8, 1#8] := by decide

/-- A8. -/
theorem test_xor : regsAfter 0x8123 (withRegs [(1, 0xF0#8), (2, 0x3C#8), (15, 1#8)]) [1, 2, 0xF] =
    some [0xCC#8, 0x3C#8, 1#8] := by decide

/-- A10, A11. -/
theorem test_add_reg : regsAfter 0x8124 (withRegs [(1, 0xF0#8), (2, 0x20#8)]) [1, 0xF] = some [0x10#8, 1#8] ∧
    regsAfter 0x8124 (withRegs [(1, 0xF0#8), (2, 0x0F#8), (15, 1#8)]) [1, 0xF] = some [0xFF#8, 0#8] := by decide

/-- A13, A15: `VF` as destination and as source. -/
theorem test_add_reg_vf : regsAfter 0x8F14 (withRegs [(1, 4#8), (15, 3#8)]) [1, 0xF] = some [4#8, 0#8] ∧
    regsAfter 0x81F4 (withRegs [(1, 0xFF#8), (15, 1#8)]) [1, 0xF] = some [0#8, 1#8] := by decide

/-- A16, A18. -/
theorem test_sub : regsAfter 0x8125 (withRegs [(1, 0x20#8), (2, 0x10#8)]) [1, 2, 0xF] = some [0x10#8, 0x10#8, 1#8] ∧
    regsAfter 0x8125 (withRegs [(1, 0x33#8), (2, 0x33#8), (15, 1#8)]) [1, 0xF] = some [0#8, 0#8] := by decide

/-- A17. -/
theorem test_sub_borrow : regsAfter 0x8125 (withRegs [(1, 0x10#8), (2, 0x20#8)]) [1, 0xF] = some [0xF0#8, 0#8] := by decide

/-- A23, A24. -/
theorem test_subn : regsAfter 0x8127 (withRegs [(1, 0x10#8), (2, 0x20#8)]) [1, 2, 0xF] = some [0x10#8, 0x20#8, 1#8] ∧
    regsAfter 0x8127 (withRegs [(1, 0x20#8), (2, 0x10#8)]) [1, 0xF] = some [0xF0#8, 0#8] := by decide

/-- A20, A21. -/
theorem test_shr : regsAfter 0x8126 (withRegs [(1, 0x05#8), (2, 0xEE#8)]) [1, 2, 0xF] = some [0x02#8, 0xEE#8, 1#8] ∧
    regsAfter 0x8F06 (withRegs [(15, 3#8)]) [0xF] = some [1#8] := by decide

/-- A26, A29. -/
theorem test_shl : regsAfter 0x810E (withRegs [(1, 0x81#8)]) [1, 0xF] = some [0x02#8, 1#8] ∧
    regsAfter 0x8F0E (withRegs [(15, 0x40#8)]) [0xF] = some [0#8] := by decide

/-- A31, and the draw is spent (R141). -/
theorem test_rnd_masked : (ran 0xC300 (withRegs [(3, 9#8)])).map (fun t => (t.reg 3, t.draws, t.pc)) =
    some (0#8, 1, 0x202#16) := by
  have h : ran 0xC300 (withRegs [(3, 9#8)]) =
      some (((({ withRegs [(3, 9#8)] with mem := [(512, 0xC3#8)], ir := 0xC300#16, draws := 1 } : State).setReg 3
        (Config.rand8 0 &&& 0#8))).endCycle) := rfl
  rw [h, BitVec.and_zero]
  decide

/-- A32: the byte itself, for every value it can have. -/
theorem test_rnd_whole : (ran 0xC3FF State.reset).map (fun t => t.reg 3) = some (Config.rand8 0) := by
  have h : (ran 0xC3FF State.reset).map (fun t => t.reg 3) = some (Config.rand8 0 &&& BitVec.allOnes 8) := rfl
  rw [h, BitVec.and_allOnes]

/-! ## Address register and memory -/

/-- M1. -/
theorem test_ld_i : (ran 0xA2F0 State.reset).map (·.i) = some 0x2F0#16 := by decide

/-- M3. -/
theorem test_add_i : (ran 0xF21E { withRegs [(2, 0x20#8)] with i := 0x2F0#16 }).map (fun t => (t.i, t.reg vf)) =
    some (0x310#16, 0#8) := by decide

/-- M6. -/
theorem test_add_i_out_of_range :
    (ran 0xF21E { withRegs [(2, 0xFF#8)] with i := 0xF80#16 }).map (fun t => (t.i, t.pc, t.status)) =
      some (0xF80#16, 0x200#16, .faulted (.indexOutOfRange 4223 0x200#16 0xF21E#16)) := by decide

/-- M10, M11. -/
theorem test_ld_f : (ran 0xF429 (withRegs [(4, 0x10#8)])).map (·.i) = some 80#16 ∧
    (ran 0xF429 (withRegs [(4, 0xFF#8)])).map (·.i) = some 1275#16 := by decide

/-- M16, M17. -/
theorem test_ld_b : bytesAfter 0xF533 { withRegs [(5, 0x7B#8)] with i := 0x300#16 } [0x300, 0x301, 0x302] =
      some [1#8, 2#8, 3#8] ∧
    bytesAfter 0xF533 { withRegs [(5, 0xFF#8)] with i := 0xFFD#16 } [0xFFD, 0xFFE, 0xFFF] = some [2#8, 5#8, 5#8] := by decide

/-- M18: nothing is written. -/
theorem test_ld_b_out_of_range :
    (ran 0xF533 { withRegs [(5, 0xFF#8)] with i := 0xFFE#16 }).map (fun t => (t.byte 0xFFE, t.byte 0xFFF, t.status)) =
      some (0#8, 0#8, .faulted (.memAccessOutOfRange 4096 0x200#16 0xF533#16)) := by decide

/-- M19, M26: one register; a store over the executing word. -/
theorem test_ld_store : bytesAfter 0xF055 { withRegs [(0, 0xAA#8), (1, 0xBB#8)] with i := 0x300#16 } [0x300, 0x301] =
      some [0xAA#8, 0#8] ∧
    (ran 0xF155 { withRegs [(0, 0x12#8)] with i := 0x200#16 }).map (fun t => (t.byte 0x200, t.byte 0x201, t.ir, t.pc)) =
      some (0x12#8, 0#8, 0xF155#16, 0x202#16) := by decide

/-- M21. -/
theorem test_ld_store_out_of_range : statusAfter 0xFF55 { State.reset with i := 0xFF1#16 } =
    some (.faulted (.memAccessOutOfRange 4096 0x200#16 0xFF55#16)) := by decide

/-- M22. -/
theorem test_ld_load : regsAfter 0xF265
      { withRegs [(3, 0x99#8)] with i := 0x300#16, mem := [(0x300, 0x11#8), (0x301, 0x22#8), (0x302, 0x33#8)] } [0, 1, 2, 3] =
    some [0x11#8, 0x22#8, 0x33#8, 0x99#8] := by decide

/-- M24. -/
theorem test_ld_load_out_of_range : statusAfter 0xF165 { State.reset with i := 0xFFF#16 } =
    some (.faulted (.memAccessOutOfRange 4096 0x200#16 0xF165#16)) := by decide

/-! ## Draw -/

/-- G8: wrap on both axes. -/
theorem test_drw_wraps : vramAfter 0xD012
      { withRegs [(0, 60#8), (1, 31#8)] with i := 0x300#16, mem := [(0x300, 0xFF#8), (0x301, 0x81#8)] } =
    some ([(0, 0x10#8), (7, 0x08#8), (496, 0xF0#8), (503, 0x0F#8)], 0#8) := by decide

/-- G5: a collision in the first row is kept by the second. -/
theorem test_drw_collides : vramAfter 0xD122
      { withRegs [(1, 10#8), (2, 5#8)] with
        i := 0x300#16, mem := [(0x300, 0xC0#8), (0x301, 0xC0#8)], vram := [(81, 0x20#8)] } =
    some ([(81, 0x10#8), (97, 0x30#8)], 1#8) := by decide

/-- R175's corner case (f) says that the second of two equal draws collides iff the sprite has any lit bit. Here the sprite
has one, over a pixel that was lit: the first draw collides and the second does not (R178). -/
theorem test_second_draw_of_lit_sprite_without_collision :
    (ran 0xD001 { State.reset with i := 0x300#16, mem := [(0x300, 0x80#8)], vram := [(0, 0x80#8)] }).map
        (fun t => (t.reg vf, (ran 0xD001 t).map fun u => (u.vram, u.reg vf))) =
      some (1#8, some ([(0, 0x80#8)], 0#8)) := by decide

/-! ## Keys and timers -/

/-- K1, K3: a key above 15 is never down. -/
theorem test_skp : pcAfter 0xE59E (withKeys [10] (withRegs [(5, 0x0A#8)])) = some 0x204#16 ∧
    pcAfter 0xE59E (withKeys [10] (withRegs [(5, 0x1A#8)])) = some 0x202#16 := by decide

/-- K5, K6. -/
theorem test_sknp : pcAfter 0xE5A1 (withKeys [10] (withRegs [(5, 0x0A#8)])) = some 0x202#16 ∧
    pcAfter 0xE5A1 (withKeys (List.range 16) (withRegs [(5, 0xFF#8)])) = some 0x204#16 := by decide

/-- K7. -/
theorem test_ld_vx_dt : regsAfter 0xF307 { State.reset with dt := { value := 0x2A#8, phase := 0 } } [3] =
    some [0x2A#8] := by decide

/-- K8. -/
theorem test_ld_vx_k_waits : (ran 0xF30A (withRegs [(3, 0x77#8)])).map (fun t => (t.pc, t.reg 3)) =
    some (0x200#16, 0x77#8) := by decide

/-- K10, K11. -/
theorem test_ld_vx_k : (ran 0xF30A (withKeys [3, 7, 15] State.reset)).map (fun t => (t.pc, t.reg 3)) =
      some (0x202#16, 3#8) ∧
    regsAfter 0xFF0A (withKeys [0] (withRegs [(15, 9#8)])) [0xF] = some [0#8] := by decide

/-- K12, K13. -/
theorem test_ld_dt_vx : (ran 0xF315 (withRegs [(3, 5#8)])).map (·.dt.value) = some 5#8 ∧
    (ran 0xF315 { State.reset with dt := { value := 9#8, phase := 0 } }).map (·.dt.value) = some 0#8 := by decide

/-- K15, K16: `AUDIO` follows in the same cycle. -/
theorem test_ld_st_vx : (ran 0xF318 (withRegs [(3, 0x10#8)])).map (fun t => (t.st.value, t.audio)) = some (0x10#8, true) ∧
    (ran 0xF318 { State.reset with st := { value := 7#8, phase := 0 }, audio := true }).map (fun t => (t.st.value, t.audio)) =
      some (0#8, false) := by decide

/-- H5, and R90's rate that is no finite number: rejected. -/
theorem test_set_clock_rejects :
    [Rate.finite 0, Rate.finite (-5), Rate.notFinite].map (fun r =>
      (({ State.reset with clockHz := some 600 } : State).setClockHz r).clockHz) = [some 600, some 600, some 600] := by
  decide +kernel

/-- T6, second half: from 5, rewritten to 5 at 2.5 periods, the countdown still reads 1 just before 7 periods have
passed, and 0 then. -/
theorem test_rewrite_keeps_cadence :
    (((({ value := 5#8, phase := 0 } : Timer).elapse (5 / 120)).set 5#8).elapse (17 / 240)).value = 1#8 ∧
    (((({ value := 5#8, phase := 0 } : Timer).elapse (5 / 120)).set 5#8).elapse (9 / 120)).value = 0#8 := by
  decide +kernel

/-! ## Witnesses: the hypotheses of each statement that has some, met together, each clause at a boundary of its range -/

/-- A state in the middle of a run: fonts, a filled stack slot, running timers, lit pixels, a clock. -/
def busy (pc i : Word) (sp : Nat) (agenda : List Event) : State :=
  { State.reset with
    pc := pc, i := i, sp := sp, agenda := agenda
    stack := [(0, 0x206#16)]
    dt := { value := 9#8, phase := 0 }
    st := { value := 3#8, phase := 0 }
    vram := [(0, 0x80#8)]
    mem := [(0x300, 0xFF#8), (0xFFF, 0x01#8)]
    clockHz := some 600
    fonts := some { std := List.replicate 80 0x11#8, ext := List.replicate 320 0x22#8 } }

theorem busy_inv (pc i : Word) (sp : Nat) (agenda : List Event) (hpc : pc.toNat < 4096) (hi : i.toNat < 4096)
    (hsp : sp ≤ 256) : (busy pc i sp agenda).Inv where
  index := hi
  counter := hpc
  depth := hsp
  entries a := by
    show (Store.read [(0, 0x206#16)] a).toNat < 4096
    by_cases h : 0 = a <;> simp [Store.read, h]
  stackForm := rfl
  memForm := rfl
  vramForm := rfl
  delay := ⟨le_refl _, fun _ => rfl⟩
  sound := ⟨le_refl _, fun _ => rfl⟩
  burstRuns h := absurd rfl h
  clock hz h := by
    cases h
    norm_num
  fontSizes f h := Option.some.inj h ▸ ⟨List.length_replicate, List.length_replicate⟩

/-- The state whose fetch at `pc` reads a word, with the registers and the rest as given. -/
def placed (s : State) (pc : Word) (w : Nat) : State := ({ s with pc := pc } : State).withFetchWord 16 w

theorem witness_DecodeOfEncodedBytes : Instr.wellFormed true .high = true ∧ Instr.wellFormed false (.drw 0 15 15#4) = true :=
  ⟨rfl, rfl⟩

theorem witness_EncodeOfDecodedWord : decodeWord true 0x00FF#16 = .ok .high ∧ decodeWord false 0xFFFF#16 = .error (.miss 0xFFFF#16) ∧
    decodeWord false 0xFF65#16 = .ok (.ldLoad 15) := by decide

theorem witness_OpcodeMapDecidesInstruction : ⟨"DRW", 0xF000#16, 0xD000#16⟩ ∈ opcodeMap ∧
    0xDFFF#16 &&& 0xF000#16 = 0xD000#16 ∧ 0xE09E#16 &&& 0xF000#16 ≠ 0xD000#16 := by decide

theorem witness_DecodeMissesAreExactlyThoseListed :
    [0x0FFF#16, 0x8008#16, 0xE09F#16, 0xFFFF#16].map (decodeWord true) =
      [.error (.miss 0x0FFF#16), .error (.miss 0x8008#16), .error (.miss 0xE09F#16), .error (.miss 0xFFFF#16)] := by decide

theorem witness_CpuHasTheTurn : State.reset.status = .running ∧ State.reset.agenda = [] ∧
    (busy 0x200 0 0 [.cycle, .press 3]).agenda = .cycle :: [.press 3] ∧
    (∃ s : State, s.status = .running ∧ s.agenda = .schedTick 1 :: [] ∧ (Event.schedTick 1).waitsForBurst = true ∧ s.burst ≠ 0) :=
  ⟨rfl, rfl, rfl, { State.reset with agenda := [.schedTick 1], burst := 1 }, rfl, rfl, rfl, by decide⟩

theorem witness_StepRunsDecodedInstruction : (placed State.reset 4094#16 0x1200).cpuRuns [] ∧
    (placed State.reset 4094#16 0x1200).pc.toNat ≤ 4094 ∧
    decode true [(placed State.reset 4094#16 0x1200).byte 4094, (placed State.reset 4094#16 0x1200).byte 4095] =
      .ok (.jp 0x200#12, []) := ⟨⟨rfl, rfl⟩, by decide, by decide⟩

theorem witness_DecodeMissIsReportedNoOperation : (placed State.reset 4094#16 0x8129).cpuRuns [] ∧
    (placed State.reset 4094#16 0x8129).pc.toNat ≤ 4094 ∧
    decodeWord true (placed State.reset 4094#16 0x8129).fetchWord = .error (.miss 0x8129#16) :=
  ⟨⟨rfl, rfl⟩, by decide, by decide⟩

theorem witness_FetchAtTopFaults : (busy 4095#16 0 1 [.cycle]).cpuRuns [] ∧ (busy 4095#16 0 1 [.cycle]).pc.toNat = 4095 :=
  ⟨⟨rfl, rfl⟩, rfl⟩

/-- A machine that has faulted. -/
def broken (agenda : List Event) : State :=
  { busy 0x200#16 0x300#16 0 agenda with status := .faulted (.stackUnderflow 0x200#16 0x00EE#16) }

theorem witness_FaultedMachineRunsNoCycle :
    (broken []).turn = .cpu [] ∧ (broken []).agenda = [] ∧
    (broken [.cycle]).turn = .cpu [] ∧ (broken [.cycle]).agenda ≠ [] ∧
    (broken []).status = .faulted (.stackUnderflow 0x200#16 0x00EE#16) := ⟨rfl, rfl, rfl, by decide, rfl⟩

/-- Both kinds of fault: one from the handler, one from the fetch. -/
theorem witness_FaultsArePrecise :
    ((placed State.reset 0x200#16 0x00EE).cpuRuns [] ∧ ∃ t, step (placed State.reset 0x200#16 0x00EE) = .next t ∧
      t.status = .faulted (.stackUnderflow 0x200#16 0x00EE#16)) ∧
    ((busy 4095#16 0 0 []).cpuRuns [] ∧ ∃ t, step (busy 4095#16 0 0 []) = .next t ∧
      t.status = .faulted (.fetchOutOfRange 4095#16)) :=
  ⟨⟨⟨rfl, rfl⟩, _, rfl, rfl⟩, ⟨rfl, rfl⟩, _, rfl, rfl⟩

theorem witness_OnlyListedInstructionsFault : ∃ t, State.reset.status = .running ∧ exec .ret State.reset = .next t ∧
    t.status = .faulted (.stackUnderflow 512#16 0#16) := ⟨_, rfl, rfl, rfl⟩

theorem witness_OnlyResetClearsFault : ∃ t, (broken [.reset]).status = .faulted (.stackUnderflow 0x200#16 0x00EE#16) ∧
    step (broken [.reset]) = .next t ∧ t.status = .running := ⟨_, rfl, rfl, rfl⟩

theorem witness_AudioFollowsSoundTimer :
    (∃ t, step (busy 0x200 0 0 [.cycle]) = .next t ∧ (busy 0x200 0 0 [.cycle]).cpuRuns [] ∧ t.status = .running) ∧
    (∃ t, step (busy 4095#16 0 0 []) = .next t ∧ (busy 4095#16 0 0 []).turn = .cpu [] ∧ t.status ≠ .running) ∧
    (∃ t, step (broken [.cycle]) = .next t ∧ (broken [.cycle]).turn = .cpu [] ∧ t.status ≠ .running) ∧
    (∃ t, step (busy 0x200 0 0 [.press 15]) = .next t ∧ (busy 0x200 0 0 [.press 15]).turn = .other (.press 15) []) :=
  ⟨⟨_, rfl, ⟨rfl, rfl⟩, rfl⟩, ⟨_, rfl, rfl, by decide⟩, ⟨_, rfl, rfl, by decide⟩, _, rfl, rfl⟩

theorem witness_TraceStrobesCompletedCycles :
    (∃ t, State.reset.cpuRuns [] ∧ step State.reset = .next t ∧ t.status = .running) ∧
    (∃ t, (busy 4095#16 0 0 []).cpuRuns [] ∧ step (busy 4095#16 0 0 []) = .next t ∧
      t.status = .faulted (.fetchOutOfRange 4095#16)) :=
  ⟨⟨_, ⟨rfl, rfl⟩, rfl, rfl⟩, _, ⟨rfl, rfl⟩, rfl, rfl⟩

/-- With a burst of one cycle left, and at its boundary with none. -/
theorem witness_BurstCountsCycles :
    (∃ t, ({ State.reset with burst := 1 } : State).cpuRuns [] ∧ step { State.reset with burst := 1 } = .next t ∧
      t.status = .running) ∧
    (∃ t, (busy 4095#16 0 0 []).cpuRuns [] ∧ step (busy 4095#16 0 0 []) = .next t ∧ t.status ≠ .running) :=
  ⟨⟨_, ⟨rfl, rfl⟩, rfl, rfl⟩, _, ⟨rfl, rfl⟩, rfl, by decide⟩

theorem witness_StepKeepsInvariant : ∃ t, (busy 4095#16 4095#16 256 []).Inv ∧ step (busy 4095#16 4095#16 256 []) = .next t :=
  ⟨_, busy_inv _ _ _ _ (by decide) (by decide) (by decide), rfl⟩

theorem witness_RegistersWrittenOnlyAsListed : ∃ t, exec (.drw 0 1 1#4) (busy 0x200 0x300 0 []) = .next t ∧
    (Instr.drw 0 1 1#4).mayWrite 14 = false := ⟨_, rfl, rfl⟩

theorem witness_ComponentsWrittenOnlyAsListed : ∃ t, exec (.ldB 15) (busy 0x200 0xFFD 0 []) = .next t := ⟨_, rfl⟩

theorem witness_ProgramCounterFollowsTable : ∃ t, (busy 4094#16 0 1 []).Inv ∧ (busy 4094#16 0 1 []).status = .running ∧
    (busy 4094#16 0 1 []).pc.toNat ≤ 4094 ∧ exec .ret (busy 4094#16 0 1 []) = .next t ∧ t.status = .running :=
  ⟨_, busy_inv _ _ _ _ (by decide) (by decide) (by decide), rfl, by decide, rfl, rfl⟩

theorem witness_FramebufferAndSoundTimerAreUnread : ∃ t u, exec (.drw 0 0 1#4) (busy 0x200 0x300 0 []) = .next t ∧
    exec (.drw 0 0 1#4) { busy 0x200 0x300 0 [] with vram := [], st := { value := 0#8, phase := 0 } } = .next u :=
  ⟨_, _, rfl, rfl⟩

/-- For the clause on `x ≠ vf` of `AddWithCarryOut`, `SubtractWithGreaterFlag` and `ShiftsByOne`. -/
theorem witness_AddWithCarryOut : (14 : Reg) ≠ vf := by decide

theorem witness_SpriteSizesFollowTable : (1#4 : Nibble) ≠ 0#4 ∧ (15#4 : Nibble) ≠ 0#4 := by decide

theorem witness_CallPushesOwnAddress : (busy 0x200 0 255 []).sp < (busy 0x200 0 255 []).config.stackDepth ∧
    (busy 0x200 0 256 []).config.stackDepth ≤ (busy 0x200 0 256 []).sp := by decide

theorem witness_ReturnPopsAndAdvances : ((busy 0x200 0 1 []).Inv ∧ 0 < (busy 0x200 0 1 []).sp) ∧
    ((busy 0x200 0 0 []).Inv ∧ (busy 0x200 0 0 []).sp = 0) :=
  ⟨⟨busy_inv _ _ _ _ (by decide) (by decide) (by decide), by decide⟩,
   busy_inv _ _ _ _ (by decide) (by decide) (by decide), rfl⟩

theorem witness_ReturnResumesAfterCall : ∃ t, (busy 4094#16 0 255 []).Inv ∧
    (busy 4094#16 0 255 []).sp < (busy 4094#16 0 255 []).config.stackDepth ∧
    exec (.call 0xFFF#12) (busy 4094#16 0 255 []) = .next t ∧ ({ t with i := 7#16 } : State).stack = t.stack :=
  ⟨_, busy_inv _ _ _ _ (by decide) (by decide) (by decide), by decide, rfl, rfl⟩

theorem witness_SelfJumpIsFixedPoint : (placed State.reset 4094#16 0x1FFE).cpuRuns [] ∧
    (placed State.reset 4094#16 0x1FFE).pc.toNat = (0xFFE#12 : Addr).toNat ∧ (placed State.reset 4094#16 0x1FFE).pc.toNat ≤ 4094 ∧
    decodeWord true (placed State.reset 4094#16 0x1FFE).fetchWord = .ok (.jp 0xFFE#12) :=
  ⟨⟨rfl, rfl⟩, by decide, by decide, by decide⟩

theorem witness_AddToIndex :
    (busy 0x200 4095 0 []).i.toNat + ((busy 0x200 4095 0 []).reg 0).toNat ≤ 4095 ∧
    4095 < ({ withRegs [(0, 1#8)] with i := 4095#16 } : State).i.toNat + ((withRegs [(0, 1#8)]).reg 0).toNat := by decide

theorem witness_StoreDecimalDigits : (busy 0x200 4093 0 []).dataAddr 0 + 2 ≤ 4095 ∧
    4095 < (busy 0x200 4094 0 []).dataAddr 0 + 2 := by decide

theorem witness_StoreRegisters : (busy 0x200 4080 0 []).dataAddr 0 + (15 : Reg).val ≤ 4095 ∧
    4095 < (busy 0x200 4081 0 []).dataAddr 0 + (15 : Reg).val := by decide

theorem witness_LoadRegisters : (busy 0x200 4095 0 []).dataAddr 0 + (0 : Reg).val ≤ 4095 ∧
    4095 < (busy 0x200 4095 0 []).dataAddr 0 + (1 : Reg).val := by decide

/-- With the registers overwritten in between. -/
theorem witness_StoreThenLoadRestoresRegisters : ∃ t m : State, (busy 0x200 4080 0 []).i.toNat + (15 : Reg).val ≤ 4095 ∧
    exec (.ldStore 15) (busy 0x200 4080 0 []) = .next t ∧ m.i = t.i ∧ m.v ≠ t.v ∧ ∀ a, m.byte a = t.byte a :=
  ⟨_, { busy 0x200 4080 0 [] with v := Vector.replicate 16 7#8, mem := [(0x300, 0xFF#8)] }, by decide, rfl, rfl, by decide,
    fun _ => rfl⟩

/-- A block that ends at the last byte, a fetch that overlaps its first byte only, and a block of one register. -/
theorem witness_StoreIsSeenByNextFetch :
    (∃ t u, (busy 4092 4093 0 []).i.toNat + 2 ≤ 4095 ∧ exec (.ldB 1) (busy 4092 4093 0 []) = .next t ∧
      ({ t with pc := 4092 } : State).cpuRuns [] ∧ step { t with pc := 4092 } = .next u) ∧
    (∃ t u, (busy 4094 4095 0 []).i.toNat + (0 : Reg).val ≤ 4095 ∧ exec (.ldStore 0) (busy 4094 4095 0 []) = .next t ∧
      ({ t with pc := 4094 } : State).cpuRuns [] ∧ step { t with pc := 4094 } = .next u) :=
  ⟨⟨_, _, by decide, rfl, ⟨rfl, rfl⟩, rfl⟩, _, _, by decide, rfl, ⟨rfl, rfl⟩, rfl⟩

/-- No rows at the top of memory, and a sprite whose last byte is the last of memory. -/
theorem witness_DrawTogglesCoveredPixels : spriteBytes (busy 0x200 4095 0 []).ext 0#4 = 0 ∧
    (busy 0x200 4095 0 []).i.toNat + spriteBytes (busy 0x200 4095 0 []).ext 1#4 = 4096 := by decide

theorem witness_DrawOutOfMemoryFaults : spriteBytes (busy 0x200 4095 0 []).ext 2#4 ≠ 0 ∧
    4096 < (busy 0x200 4095 0 []).i.toNat + spriteBytes (busy 0x200 4095 0 []).ext 2#4 := by decide

theorem witness_DrawTwiceRestoresFramebuffer : ∃ t u, (busy 0x200 0x300 0 []).Inv ∧
    (busy 0x200 0x300 0 []).i.toNat + spriteBytes (busy 0x200 0x300 0 []).ext 1#4 ≤ 4096 ∧
    exec (.drw 0 0 1#4) (busy 0x200 0x300 0 []) = .next t ∧ exec (.drw 0 0 1#4) t = .next u :=
  ⟨_, _, busy_inv _ _ _ _ (by decide) (by decide) (by decide), by decide, rfl, rfl⟩

theorem witness_SecondDrawCollidesIffFirstLit : ∃ t u,
    (busy 0x200 4095 0 []).i.toNat + spriteBytes (busy 0x200 4095 0 []).ext 1#4 ≤ 4096 ∧
    exec (.drw 0 0 1#4) (busy 0x200 4095 0 []) = .next t ∧ exec (.drw 0 0 1#4) t = .next u :=
  ⟨_, _, by decide, rfl, rfl⟩

theorem witness_WaitForKey : ((withKeys [15] State.reset).key[15] = true ∧ ∀ j, (hj : j < 15) →
      (withKeys [15] State.reset).key[j] = false) ∧ (∀ k, (h : k < 16) → State.reset.key[k] = false) := by decide

theorem witness_TimerTickDecrements : (busy 0x200 0 0 [.timerTick .delay]).agenda = .timerTick .delay :: [] ∧
    0 < (busy 0x200 0 0 [.timerTick .delay]).dt.value.toNat ∧ 0 < (1#8 : Byte).toNat ∧
    (busy 0x200 0 0 [.timerTick .sound]).agenda = .timerTick .sound :: [] ∧
    0 < (busy 0x200 0 0 [.timerTick .sound]).st.value.toNat ∧
    State.reset.dt.value = 0#8 ∧ State.reset.st.value = 0#8 := by decide

/-- Three periods and just under four; a sound timer that runs. -/
theorem witness_CountdownKeepsCadence : (5#8 : Byte) ≠ 0#8 ∧ ((3 : Nat) : Rat) / 60 ≤ 3 / 60 ∧
    (3 : Rat) / 60 < (((3 : Nat) : Rat) + 1) / 60 ∧ ({ value := 5#8, phase := 1 / 120 } : Timer).Sound ∧
    (0 : Rat) ≤ 1 / 60 ∧ (busy 0x200 0 0 [.elapse (-1)]).agenda = .elapse (-1) :: [] ∧ (-1 : Rat) < 0 := by
  refine ⟨by decide, by norm_num, by norm_num, ⟨by norm_num, by decide⟩, by norm_num, rfl, by norm_num⟩

theorem witness_SchedTickIssuesBurst :
    (busy 0x200 0 0 [.schedTick 1]).agenda = .schedTick 1 :: [] ∧ (busy 0x200 0 0 [.schedTick 1]).burst = 0 ∧
    (busy 0x200 0 0 [.schedTick 1]).lastT = none ∧
    (∃ s : State, s.agenda = .schedTick 1 :: [] ∧ s.burst = 0 ∧ s.lastT = some 1 ∧ s.clockHz = some 600 ∧ s.status = .running) ∧
    (∃ s : State, s.agenda = .schedTick 1 :: [] ∧ s.burst = 0 ∧ s.lastT = some 1 ∧ s.clockHz = some 600 ∧ s.status ≠ .running) :=
  ⟨rfl, rfl, rfl, ⟨{ busy 0x200 0 0 [.schedTick 1] with lastT := some 1 }, rfl, rfl, rfl, rfl, rfl⟩,
   { broken [.schedTick 1] with lastT := some 1 }, rfl, rfl, rfl, rfl, by decide⟩

theorem witness_HostWritesOrRefuses :
    (busy 0x200 0 0 [.setClockHz (.finite 0)]).burst = 0 ∧ (broken [.setClockHz .notFinite]).status ≠ .running ∧
    (busy 0x200 0 0 [.setClockHz (.finite 0)]).agenda = .setClockHz (.finite 0) :: [] ∧ ((0 : Rat) ≤ 0 ∧ (0 : Rat) < 1) ∧
    (busy 0x200 0 0 [.setClockHz .notFinite]).agenda = .setClockHz .notFinite :: [] ∧
    ({ busy 0x200 0 0 [.press 15] with burst := 1 } : State).agenda = .press 15 :: [] ∧
    (busy 0x200 0 0 [.press 15]).agenda = .press 15 :: [] ∧ (busy 0x200 0 0 [.release 16]).agenda = .release 16 :: [] ∧
    (busy 0x200 0 0 [.provideFonts [] []]).agenda = .provideFonts [] [] :: [] ∧
    (busy 0x200 0 0 [.setMode true]).agenda = .setMode true :: [] ∧ State.reset.config.modeOps = true ∧
    ({ State.reset with config := { modeOps := false, stackDepth := 1 } } : State).config.modeOps = false ∧
    (List.replicate 80 0#8).length = 80 ∧ (List.replicate 320 0#8).length = 320 ∧ ¬([] : List Byte).length = 80 :=
  ⟨rfl, by decide, rfl, by norm_num, rfl, rfl, rfl, rfl, rfl, rfl, rfl, rfl, List.length_replicate, List.length_replicate, by decide⟩

theorem witness_ResetLeavesTable : (broken [.reset]).agenda = .reset :: [] ∧ (broken [.powerOn]).agenda = .powerOn :: [] :=
  ⟨rfl, rfl⟩

theorem witness_LoadPlacesFontsAndProgram : (busy 0x300 0 1 [.loadProgram [0x12#8]]).Inv ∧
    (busy 0x300 0 1 [.loadProgram [0x12#8]]).agenda = .loadProgram [0x12#8] :: [] ∧
    (busy 0x300 0 1 [.loadProgram [0x12#8]]).fonts.isSome = true ∧ State.reset.fonts = none :=
  ⟨busy_inv _ _ _ _ (by decide) (by decide) (by decide), rfl, rfl, rfl⟩

end Sys2Proof.Tests
end

/-! ## What each instruction does, said once: its handler, its `PC`, the end of its cycle -/

namespace Sys2Proof.Machine

/-! ### Shared operations that complete -/

theorem State.setI_eq_ok {s u : State} {v : Nat} :
    s.setI v = .ok u ↔ v < 4096 ∧ u = { s with i := BitVec.ofNat 16 v } := by
  by_cases h : v < 4096
  · simp [State.setI_of_lt s h, h, eq_comm]
  · simp [State.setI_of_ge s (Nat.le_of_not_lt h), h]

theorem State.push_eq_ok {s u : State} {v : Word} :
    s.push v = .ok u ↔
      s.sp < s.config.stackDepth ∧ u = { s with stack := Store.write s.stack s.sp v, sp := s.sp + 1 } := by
  by_cases h : s.sp < s.config.stackDepth
  · simp [State.push_of_lt s v h, h, eq_comm]
  · simp [State.push_of_ge s v (Nat.le_of_not_lt h), h]

theorem State.popped_eq_ok {s u : State} :
    s.pop.map Prod.snd = .ok u ↔ 0 < s.sp ∧ u = { s with sp := s.sp - 1 } := by
  by_cases h : s.sp = 0
  · simp [State.pop_of_zero s h, Except.map, h]
  · have h : 0 < s.sp := Nat.pos_of_ne_zero h
    simp [State.pop_of_pos s h, Except.map, h, eq_comm]

theorem State.writeBlock_eq_ok {s u : State} {a : Nat} {bs : List Byte} :
    s.writeBlock a bs = .ok u ↔
      blockOutOfRange a bs.length = false ∧ u = { s with mem := Store.writeList (w := 8) s.mem a bs } := by
  unfold State.writeBlock
  cases blockOutOfRange a bs.length <;> simp [eq_comm]

theorem le_of_blockInRange {a n : Nat} (hn : 0 < n) (h : blockOutOfRange a n = false) : a + n ≤ 4096 := by
  by_contra hlt
  rw [blockOutOfRange_eq_true hn (Nat.lt_of_not_le hlt)] at h
  exact Bool.noConfusion h

/-! ### Handlers -/

/-- The state after `LD Vx,[I]` has read its bytes. -/
def State.loaded (s : State) (bytes : List Byte) : State := { s with v := loadRegs s.v 0 bytes }

/-- The state after `DRW` has cleared `VF`, drawn and written the collision (45_draw.md R175). -/
def State.drawn (s : State) (x y : Reg) (n : Nibble) : State :=
  let s0 := s.setReg vf 0#8
  let drawing := s0.drawSprite (s0.reg x).toNat (s0.reg y).toNat n
  ({ s0 with vram := drawing.1 } : State).setReg vf (flagByte drawing.2)

/-- The end of a completed cycle: `PC` written and the audio step done. -/
def State.completeAt (u : State) (pc : Word) : State := ({ u with pc := pc } : State).audioStep

/-- The end of the cycle that began in `s`: completed with the state its handler left, or faulted. -/
def State.endWith (s : State) (pc : Word) : Except CycleFault State → Host.Outcome State Fault Refusal
  | .ok u => .next (u.completeAt pc)
  | .error f => .next (s.faulted f)

end Sys2Proof.Machine

namespace Sys2Proof

open Machine

/-- What the handler of an instruction leaves, short of the write to `PC` and the audio step, or the fault it raises. That
`exec` is this handler with the end of its cycle is `exec_eq_endWith`. -/
def Instr.effect (i : Instr) (s : State) : Except CycleFault State :=
  match i with
  | .cls => .ok { s with vram := [] }
  | .low => .ok (s.setMode false)
  | .high => .ok (s.setMode true)
  | .ret => s.pop.map Prod.snd
  | .call _ => s.push s.pc
  | .jp _ | .jpV0 _ | .seImm _ _ | .sneImm _ _ | .seReg _ _ _ | .sneReg _ _ _ | .skp _ | .sknp _ => .ok s
  | .ldImm x kk => .ok (s.setReg x kk)
  | .addImm x kk => .ok (s.setReg x (s.reg x + kk))
  | .ldReg x y => .ok (s.setReg x (s.reg y))
  | .orReg x y => .ok (s.setReg x (s.reg x ||| s.reg y))
  | .andReg x y => .ok (s.setReg x (s.reg x &&& s.reg y))
  | .xorReg x y => .ok (s.setReg x (s.reg x ^^^ s.reg y))
  | .addReg x y => .ok (s.setRegAndFlag x (s.reg x + s.reg y) (carryFlag (s.reg x) (s.reg y)))
  | .sub x y => .ok (s.setRegAndFlag x (s.reg x - s.reg y) (greaterFlag (s.reg x) (s.reg y)))
  | .shr x _ => .ok (s.setRegAndFlag x (s.reg x >>> 1) (lowBitFlag (s.reg x)))
  | .subn x y => .ok (s.setRegAndFlag x (s.reg y - s.reg x) (greaterFlag (s.reg y) (s.reg x)))
  | .shl x _ => .ok (s.setRegAndFlag x (s.reg x <<< 1) (highBitFlag (s.reg x)))
  | .rnd x kk => .ok (s.rand8.2.setReg x (s.rand8.1 &&& kk))
  | .ldI nnn => s.setI nnn.toNat
  | .addI x => s.setI (s.i.toNat + (s.reg x).toNat)
  | .ldF x => s.setI ((s.reg x).toNat * Config.fontGlyphStride)
  | .ldB x => s.writeBlock (s.dataAddr 0) (bcdDigits (s.reg x))
  | .ldStore x => s.writeBlock (s.dataAddr 0) (s.regsUpTo x)
  | .ldLoad x => (s.readBlock (s.dataAddr 0) (x.val + 1)).map s.loaded
  | .drw x y n =>
    if blockOutOfRange s.i.toNat (spriteBytes s.ext n) then .error (.memAccessOutOfRange Config.memSize s.pc s.ir)
    else .ok (s.drawn x y n)
  | .ldVxDt x => .ok (s.setReg x s.dt.value)
  | .ldVxK x => .ok (s.leastKey.elim s fun k => s.setReg x (BitVec.ofNat 8 k))
  | .ldDtVx x => .ok { s with dt := s.dt.set (s.reg x) }
  | .ldStVx x => .ok { s with st := s.st.set (s.reg x) }

/-- The `PC` a completed cycle leaves: `RET` writes `PC` and then adds 2, so that both writes meet R17; `LD Vx,K` with no key
down writes none; every other instruction writes its target once. -/
def Instr.nextPc (i : Instr) (s : State) : Word :=
  match i with
  | .ret => pcTarget ((pcTarget (Store.read s.stack (s.sp - 1)).toNat).toNat + 2)
  | .ldVxK _ => s.leastKey.elim s.pc fun _ => pcTarget (s.pc.toNat + 2)
  | i => pcTarget (i.target s)

end Sys2Proof

namespace Sys2Proof.Machine

/-! ### `exec` is the handler and the end of the cycle -/

theorem advanceOr_eq_endWith (s : State) (r : Except CycleFault State) (h : ∀ u, r = .ok u → u.pc = s.pc) :
    advanceOr s r = s.endWith (pcTarget (s.pc.toNat + 2)) r := by
  cases r with
  | error f => rfl
  | ok u => rw [← h u rfl]; rfl

theorem skipIf_eq_endWith (s : State) {c c' : Bool} (h : c = c') :
    skipIf c s = s.endWith (pcTarget (if some c' = some true then s.pc.toNat + 4 else s.pc.toNat + 2)) (.ok s) := by
  subst h
  cases c <;> rfl

/-- Every instruction is its handler, and then either the end of the cycle at its `PC` or the fault. -/
theorem exec_eq_endWith (i : Instr) (s : State) : exec i s = s.endWith (i.nextPc s) (i.effect s) := by
  cases i with
  | cls | low | high | jp | jpV0 | ldImm | addImm | ldReg | orReg | andReg | xorReg | addReg | sub | shr | subn | shl
  | rnd | ldVxDt | ldDtVx | ldStVx => rfl
  | seImm | seReg | sneImm | sneReg => exact skipIf_eq_endWith s (by rw [Bool.eq_iff_iff]; simp)
  | skp | sknp => exact skipIf_eq_endWith s rfl
  | ldI | addI | ldF => exact advanceOr_eq_endWith s _ fun u hu => by rw [(State.setI_eq_ok.mp hu).2]
  | ldB | ldStore => exact advanceOr_eq_endWith s _ fun u hu => by rw [(State.writeBlock_eq_ok.mp hu).2]
  | ret =>
    show execRet s = s.endWith _ (s.pop.map Prod.snd)
    unfold execRet
    rcases Nat.eq_zero_or_pos s.sp with h | h
    · rw [s.pop_of_zero h]; rfl
    · rw [s.pop_of_pos h]; rfl
  | call nnn =>
    show execCall nnn s = s.endWith _ (s.push s.pc)
    unfold execCall
    cases s.push s.pc <;> rfl
  | ldLoad x =>
    show execLdLoad x s = s.endWith _ ((s.readBlock (s.dataAddr 0) (x.val + 1)).map s.loaded)
    unfold execLdLoad
    cases s.readBlock (s.dataAddr 0) (x.val + 1) <;> rfl
  | drw x y n =>
    show execDrw x y n s = s.endWith _ (if _ then _ else .ok (s.drawn x y n))
    unfold execDrw
    split <;> rfl
  | ldVxK x =>
    show execLdVxK x s = s.endWith (s.leastKey.elim _ _) (.ok (s.leastKey.elim _ _))
    unfold execLdVxK
    cases s.leastKey <;> rfl

/-- The two ways an instruction answers. -/
theorem exec_cases {i : Instr} {s t : State} (h : exec i s = .next t) :
    (∃ u, i.effect s = .ok u ∧ t = u.completeAt (i.nextPc s)) ∨ ∃ f, i.effect s = .error f ∧ t = s.faulted f := by
  rw [exec_eq_endWith] at h
  cases he : i.effect s with
  | ok u => rw [he] at h; exact .inl ⟨u, rfl, (Host.Outcome.next.inj h).symm⟩
  | error f => rw [he] at h; exact .inr ⟨f, rfl, (Host.Outcome.next.inj h).symm⟩

end Sys2Proof.Machine

namespace Sys2Proof

open Machine

/-! ### What a handler may write -/

/-- The state `s` with those components taken from `u` that the handler of an instruction may write (10_state.md R10). -/
def Instr.frame (i : Instr) (s u : State) : State :=
  match i with
  | .cls => { s with vram := u.vram }
  | .low | .high => { s with ext := u.ext }
  | .ret => { s with sp := u.sp }
  | .call _ => { s with sp := u.sp, stack := u.stack }
  | .jp _ | .jpV0 _ | .seImm _ _ | .sneImm _ _ | .seReg _ _ _ | .sneReg _ _ _ | .skp _ | .sknp _ => s
  | .ldImm _ _ | .addImm _ _ | .ldReg _ _ | .orReg _ _ | .andReg _ _ | .xorReg _ _ | .addReg _ _ | .sub _ _ | .shr _ _
  | .subn _ _ | .shl _ _ | .ldVxDt _ | .ldVxK _ | .ldLoad _ => { s with v := u.v }
  | .rnd _ _ => { s with v := u.v, draws := u.draws }
  | .ldI _ | .addI _ | .ldF _ => { s with i := u.i }
  | .ldB _ | .ldStore _ => { s with mem := u.mem }
  | .drw _ _ _ => { s with v := u.v, vram := u.vram }
  | .ldDtVx _ => { s with dt := u.dt }
  | .ldStVx _ => { s with st := u.st }

end Sys2Proof

namespace Sys2Proof.Machine

theorem State.loadedBlock_eq_ok {s u : State} {a n : Nat} :
    (s.readBlock a n).map s.loaded = .ok u ↔
      blockOutOfRange a n = false ∧ u = s.loaded (Store.readList (w := 8) s.mem a n) := by
  unfold State.readBlock
  cases blockOutOfRange a n <;> simp [Except.map, eq_comm]

theorem effect_drw_eq_ok {s u : State} {x y : Reg} {n : Nibble} :
    (Instr.drw x y n).effect s = .ok u ↔
      blockOutOfRange s.i.toNat (spriteBytes s.ext n) = false ∧ u = s.drawn x y n := by
  rw [Instr.effect]
  split
  · next h => simp [h]
  · next h => simp [Bool.eq_false_iff.mpr h, Except.ok.injEq, eq_comm (a := u)]

/-- A handler that does not fault writes nothing but the components listed for its instruction. -/
theorem effect_eq_frame {i : Instr} {s u : State} (h : i.effect s = .ok u) : u = i.frame s u := by
  cases i with
  | cls | low | high | jp | jpV0 | seImm | sneImm | seReg | sneReg | skp | sknp | ldImm | addImm | ldReg | orReg | andReg
  | xorReg | addReg | sub | shr | subn | shl | rnd | ldVxDt | ldDtVx | ldStVx => cases h; rfl
  | ret => rw [(State.popped_eq_ok.mp h).2]; rfl
  | call => rw [(State.push_eq_ok.mp h).2]; rfl
  | ldI | addI | ldF => rw [(State.setI_eq_ok.mp h).2]; rfl
  | ldB | ldStore => rw [(State.writeBlock_eq_ok.mp h).2]; rfl
  | ldLoad => rw [(State.loadedBlock_eq_ok.mp h).2]; rfl
  | drw => rw [(effect_drw_eq_ok.mp h).2]; rfl
  | ldVxK x =>
    cases hk : s.leastKey <;> rw [Instr.effect, hk] at h <;> cases h <;> rfl

theorem frame_status (i : Instr) (s u : State) : (i.frame s u).status = s.status := by cases i <;> rfl

theorem effect_status {i : Instr} {s u : State} (h : i.effect s = .ok u) : u.status = s.status := by
  rw [effect_eq_frame h, frame_status]

/-! ## Reset -/

/-- Settles O17: after reset every store is empty and every count is 0. -/
theorem resetMeetsInvariant : Obligations.ResetMeetsInvariant where
  index := by decide
  counter := by decide
  depth := Nat.zero_le _
  entries a := by rw [State.reset, Store.read_nil]; decide
  stackForm := rfl
  memForm := rfl
  vramForm := rfl
  delay := Timer.sound_zero
  sound := Timer.sound_zero
  burstRuns h := absurd rfl h
  clock _ h := nomatch h
  fontSizes _ h := nomatch h

/-! ## The steps of the other agents -/

/-- The operations that put the machine into its reset state (10_state.md R33, R34). -/
def Event.Resets (e : Event) : Prop := e = .reset ∨ e = .powerOn ∨ ∃ rom, e = .loadProgram rom

theorem hostSetMode_cases (s : State) (e : Bool) : s.hostSetMode e = s ∨ s.hostSetMode e = s.setMode e := by
  unfold State.hostSetMode
  split
  · exact .inl rfl
  · exact .inr rfl

theorem setClockHz_cases (s : State) (hz : Rate) :
    s.setClockHz hz = s ∨ ∃ r, 0 < r ∧ s.setClockHz hz = { s with clockHz := some r } := by
  cases hz with
  | notFinite => exact .inl rfl
  | finite r =>
    rcases lt_or_ge 0 r with h | h
    · exact .inr ⟨r, h, s.setClockHz_of_pos h⟩
    · exact .inl (s.setClockHz_of_nonpos h)

theorem provideFonts_cases (s : State) (std ext : List Byte) :
    s.provideFonts std ext = s ∨ std.length = Config.fontStdLen ∧ ext.length = Config.fontExtLen ∧
      s.provideFonts std ext = { s with fonts := some { std := std, ext := ext } } := by
  unfold State.provideFonts
  split
  · next h =>
    rw [fontsFit, Bool.and_eq_true, decide_eq_true_eq, decide_eq_true_eq] at h
    exact .inr ⟨h.1, h.2, rfl⟩
  · exact .inl rfl

/-- A `SchedTick` writes the scheduler's components, and gives no burst to a machine that does not run (R88, R92). -/
theorem schedTick_cases (s : State) (now : Rat) :
    ∃ burst draws, s.schedTick now = { s with lastT := some now, draws := draws, burst := burst } ∧
      (burst ≠ 0 → s.status = .running) := by
  unfold State.schedTick
  split
  · exact ⟨_, _, rfl, fun h => absurd rfl h⟩
  · refine ⟨_, _, rfl, fun h => ?_⟩
    by_contra hs
    exact h (if_neg hs)

/-- No agent but a resetting host writes `STATUS` or `AUDIO`. -/
theorem external_status_audio (s : State) (e : Event) :
    e.Resets ∨ ((s.external e).status = s.status ∧ (s.external e).audio = s.audio) := by
  cases e with
  | reset => exact .inl (.inl rfl)
  | powerOn => exact .inl (.inr (.inl rfl))
  | loadProgram rom => exact .inl (.inr (.inr ⟨rom, rfl⟩))
  | cycle | elapse | press | release => exact .inr ⟨rfl, rfl⟩
  | timerTick t => cases t <;> exact .inr ⟨rfl, rfl⟩
  | schedTick now =>
    obtain ⟨_, _, h, -⟩ := schedTick_cases s now
    rw [State.external, h]
    exact .inr ⟨rfl, rfl⟩
  | setClockHz hz =>
    rw [State.external]
    obtain h | ⟨r, -, h⟩ := setClockHz_cases s hz <;> rw [h] <;> exact .inr ⟨rfl, rfl⟩
  | setMode e =>
    rw [State.external]
    obtain h | h := hostSetMode_cases s e <;> rw [h] <;> exact .inr ⟨rfl, rfl⟩
  | provideFonts std ext =>
    rw [State.external]
    obtain h | ⟨-, -, h⟩ := provideFonts_cases s std ext <;> rw [h] <;> exact .inr ⟨rfl, rfl⟩

/-- Settles O13: the CPU does not run while `Faulted`, and no other agent but a resetting host writes `STATUS`. -/
theorem onlyResetClearsFault : Obligations.OnlyResetClearsFault := by
  intro s t f hf hstep ht
  obtain ⟨rest, hrun, -⟩ | ⟨rest, g, -, -, -, h⟩ | ⟨g, -, -, h⟩ | ⟨e, rest, hturn, h⟩ := step_cases s
  · cases hf.symm.trans hrun.2
  · rw [h] at hstep
    cases hstep
    cases hf.symm.trans ht
  · cases h.symm.trans hstep
  · rw [h] at hstep
    cases hstep
    obtain hreset | ⟨hkeep, -⟩ := external_status_audio { s with agenda := rest } e
    · exact ⟨e, rest, hturn, hreset⟩
    · cases hf.symm.trans (hkeep.symm.trans ht)

/-! ## The end of a cycle -/

/-- A cycle completes with `STATUS` kept and the audio step done, or faults with `AUDIO` kept. -/
theorem cycle_status_audio {s t : State} (h : cycle s = .next t) :
    (t.status = s.status ∧ (t.audio = true ↔ 0 < t.st.value.toNat)) ∨ (t.status ≠ .running ∧ t.audio = s.audio) := by
  obtain ⟨-, hc⟩ | ⟨-, i, -, hc⟩ | ⟨-, e, -, hc⟩ := cycle_cases s <;> rw [hc] at h
  · cases h
    exact .inr ⟨nofun, rfl⟩
  · obtain ⟨u, hu, rfl⟩ | ⟨f, -, rfl⟩ := exec_cases h
    · have hstatus := effect_status hu
      exact .inl ⟨hstatus, State.audioStep_iff _⟩
    · exact .inr ⟨nofun, rfl⟩
  · cases h
    exact .inl ⟨rfl, State.audioStep_iff _⟩

theorem turn_unique {s : State} {rest : List Event} {e : Event} {rest' : List Event}
    (h : s.turn = .cpu rest) : s.turn ≠ .other e rest' := by
  rw [h]; nofun

/-- Settles O14: by the agent that has the turn. -/
theorem audioFollowsSoundTimer : Obligations.AudioFollowsSoundTimer := by
  intro s t hstep
  obtain ⟨rest, hrun, h⟩ | ⟨rest, f, hturn, hf, -, h⟩ | ⟨f, -, -, h⟩ | ⟨e, rest, hturn, h⟩ := step_cases s
  · obtain ⟨hst, haudio⟩ | ⟨hst, haudio⟩ := cycle_status_audio (h.symm.trans hstep)
    · exact ⟨fun _ _ _ => haudio, fun _ _ hnot => absurd (hst.trans hrun.2) hnot,
        fun _ _ hother => absurd hother (turn_unique hrun.1)⟩
    · exact ⟨fun _ _ hrunning => absurd hrunning hst, fun _ _ _ => haudio,
        fun _ _ hother => absurd hother (turn_unique hrun.1)⟩
  · cases h.symm.trans hstep
    refine ⟨fun _ hrun => ?_, fun _ _ _ => rfl, fun _ _ _ => .inl rfl⟩
    cases hf.symm.trans hrun.2
  · cases h.symm.trans hstep
  · cases h.symm.trans hstep
    refine ⟨fun _ hrun => absurd hturn (turn_unique hrun.1), fun _ hcpu => absurd hturn (turn_unique hcpu), ?_⟩
    intro e' rest' hturn'
    cases hturn.symm.trans hturn'
    exact (external_status_audio _ e).elim .inr fun hkeep => .inl hkeep.2

/-! ## The invariant -/

theorem State.Inv.faulted {s : State} (hs : s.Inv) (f : CycleFault) : (s.faulted f).Inv :=
  { hs with burstRuns := fun h => absurd rfl h }

theorem State.Inv.completeAt {u : State} (hu : u.Inv) {pc : Word} (hpc : pc.toNat < Config.memSize) :
    (u.completeAt pc).Inv := { hu with counter := hpc }

theorem State.Inv.setReg {s : State} (hs : s.Inv) (x : Reg) (b : Byte) : (s.setReg x b).Inv := { hs with }

theorem State.Inv.setRegAndFlag {s : State} (hs : s.Inv) (x : Reg) (b f : Byte) : (s.setRegAndFlag x b f).Inv :=
  (hs.setReg x b).setReg vf f

theorem State.Inv.setI {s u : State} {v : Nat} (hs : s.Inv) (h : s.setI v = .ok u) : u.Inv := by
  obtain ⟨hv, rfl⟩ := State.setI_eq_ok.mp h
  refine { hs with index := ?_ }
  simpa using (Nat.mod_le v 65536).trans_lt hv

theorem State.Inv.push {s u : State} {v : Word} (hs : s.Inv) (hv : v.toNat < Config.memSize) (h : s.push v = .ok u) :
    u.Inv := by
  obtain ⟨hsp, rfl⟩ := State.push_eq_ok.mp h
  refine { hs with depth := hsp, entries := fun a => ?_, stackForm := Store.wf_write _ v hsp hs.stackForm }
  rw [Store.read_write]
  split
  · exact hv
  · exact hs.entries a

theorem State.Inv.popped {s u : State} (hs : s.Inv) (h : s.pop.map Prod.snd = .ok u) : u.Inv := by
  obtain ⟨-, rfl⟩ := State.popped_eq_ok.mp h
  exact { hs with depth := (Nat.sub_le _ 1).trans hs.depth }

theorem State.Inv.writeBlock {s u : State} {a : Nat} {bs : List Byte} (hs : s.Inv) (hbs : 0 < bs.length)
    (h : s.writeBlock a bs = .ok u) : u.Inv := by
  obtain ⟨hin, rfl⟩ := State.writeBlock_eq_ok.mp h
  exact { hs with memForm := Memory.wf_writeList a bs (le_of_blockInRange hbs hin) hs.memForm }

theorem State.Inv.drawn {s : State} (hs : s.Inv) (x y : Reg) (n : Nibble) : (s.drawn x y n).Inv :=
  { hs with vramForm := State.drawSprite_wf (s.setReg vf 0#8) _ _ n hs.vramForm }

/-- A handler that does not fault keeps the invariant. -/
theorem effect_inv {i : Instr} {s u : State} (hs : s.Inv) (h : i.effect s = .ok u) : u.Inv := by
  cases i with
  | jp | jpV0 | seImm | sneImm | seReg | sneReg | skp | sknp => cases h; exact hs
  | cls => cases h; exact { hs with vramForm := rfl }
  | low | high | rnd => cases h; exact { hs with }
  | ldImm | addImm | ldReg | orReg | andReg | xorReg | ldVxDt => cases h; exact hs.setReg _ _
  | addReg | sub | shr | subn | shl => cases h; exact hs.setRegAndFlag _ _ _
  | ret => exact hs.popped h
  | call => exact hs.push hs.counter h
  | ldI | addI | ldF => exact hs.setI h
  | ldB => exact hs.writeBlock (by simp) h
  | ldStore => exact hs.writeBlock (by simp) h
  | ldLoad => rw [(State.loadedBlock_eq_ok.mp h).2]; exact { hs with }
  | drw => rw [(effect_drw_eq_ok.mp h).2]; exact hs.drawn _ _ _
  | ldVxK => rw [effect_eq_frame h]; exact { hs with }
  | ldDtVx => cases h; exact { hs with delay := Timer.set_sound _ hs.delay }
  | ldStVx => cases h; exact { hs with sound := Timer.set_sound _ hs.sound }

/-- Every `PC` a cycle leaves is in range (10_state.md R17). -/
theorem nextPc_lt {s : State} (i : Instr) (hpc : s.pc.toNat < Config.memSize) : (i.nextPc s).toNat < Config.memSize := by
  cases i with
  | ldVxK x =>
    rw [Instr.nextPc]
    cases s.leastKey with
    | none => exact hpc
    | some k => exact pcTarget_lt _
  | _ => exact pcTarget_lt _

theorem exec_inv {i : Instr} {s t : State} (hs : s.Inv) (h : exec i s = .next t) : t.Inv := by
  obtain ⟨u, hu, rfl⟩ | ⟨f, -, rfl⟩ := exec_cases h
  · exact (effect_inv hs hu).completeAt (nextPc_lt i hs.counter)
  · exact hs.faulted f

theorem cycle_inv {s t : State} (hs : s.Inv) (h : cycle s = .next t) : t.Inv := by
  obtain ⟨-, hc⟩ | ⟨-, i, -, hc⟩ | ⟨-, e, -, hc⟩ := cycle_cases s <;> rw [hc] at h
  · cases h; exact hs.faulted _
  · exact exec_inv (s := { s with ir := s.fetchWord }) { hs with } h
  · cases h; exact { hs with counter := pcTarget_lt _ }

theorem State.Inv.doReset {s : State} (hs : s.Inv) : s.doReset.Inv :=
  { resetMeetsInvariant with
    depth := Nat.zero_le _, stackForm := rfl, burstRuns := fun _ => rfl, clock := hs.clock, fontSizes := hs.fontSizes }

theorem State.Inv.powerOn {s : State} (hs : s.Inv) : s.powerOn.Inv :=
  { hs.doReset with burstRuns := fun _ => rfl, clock := nofun, fontSizes := nofun }

theorem State.Inv.loadProgram {s : State} (hs : s.Inv) (rom : List Byte) : (s.loadProgram rom).Inv := by
  unfold State.loadProgram
  split
  · exact hs.doReset
  · next f hf =>
    obtain ⟨hstd, hext⟩ := hs.fontSizes f hf
    exact { hs.doReset with memForm := loadedMemory_wf f rom hstd hext }

theorem State.Inv.timerTick {s : State} (hs : s.Inv) (t : TimerId) : (s.timerTick t).Inv := by
  cases t with
  | delay => exact { hs with delay := Timer.tick_sound hs.delay }
  | sound => exact { hs with sound := Timer.tick_sound hs.sound }

theorem State.Inv.schedTick {s : State} (hs : s.Inv) (now : Rat) : (s.schedTick now).Inv := by
  obtain ⟨_, _, h, hburst⟩ := schedTick_cases s now
  rw [h]
  exact { hs with burstRuns := hburst }

theorem State.Inv.setClockHz {s : State} (hs : s.Inv) (hz : Rate) : (s.setClockHz hz).Inv := by
  obtain h | ⟨r, hr, h⟩ := setClockHz_cases s hz <;> rw [h]
  · exact hs
  · refine { hs with clock := fun hz' h' => ?_ }
    cases h'
    exact hr

theorem State.Inv.hostSetMode {s : State} (hs : s.Inv) (e : Bool) : (s.hostSetMode e).Inv := by
  obtain h | h := hostSetMode_cases s e <;> rw [h]
  · exact hs
  · exact { hs with }

theorem State.Inv.provideFonts {s : State} (hs : s.Inv) (std ext : List Byte) : (s.provideFonts std ext).Inv := by
  obtain h | ⟨hstd, hext, h⟩ := provideFonts_cases s std ext <;> rw [h]
  · exact hs
  · refine { hs with fontSizes := fun f hf => ?_ }
    cases hf
    exact ⟨hstd, hext⟩

theorem State.Inv.external {s : State} (hs : s.Inv) (e : Event) : (s.external e).Inv := by
  cases e with
  | cycle => exact hs
  | timerTick t => exact hs.timerTick t
  | elapse d => exact { hs with delay := Timer.elapse_sound d hs.delay, sound := Timer.elapse_sound d hs.sound }
  | press | release => exact { hs with }
  | schedTick now => exact hs.schedTick now
  | setClockHz hz => exact hs.setClockHz hz
  | setMode e => exact hs.hostSetMode e
  | provideFonts std ext => exact hs.provideFonts std ext
  | loadProgram rom => exact hs.loadProgram rom
  | reset => exact hs.doReset
  | powerOn => exact hs.powerOn

theorem State.Inv.withAgenda {s : State} (hs : s.Inv) (rest : List Event) : ({ s with agenda := rest } : State).Inv :=
  { hs with }

theorem State.Inv.atTurn {s : State} (hs : s.Inv) (rest : List Event) : (s.atTurn rest).Inv :=
  { hs with burstRuns := fun h => hs.burstRuns fun h0 => h (by rw [State.atTurn, h0]) }

/-- Settles O18: by the agent that has the turn; the CPU's cycle by its handler, which keeps each component in range. -/
theorem stepKeepsInvariant : Obligations.StepKeepsInvariant := by
  intro s t hs hstep
  obtain ⟨rest, -, h⟩ | ⟨rest, f, -, -, -, h⟩ | ⟨f, -, -, h⟩ | ⟨e, rest, -, h⟩ := step_cases s
  · exact cycle_inv (hs.atTurn rest) (h.symm.trans hstep)
  · cases h.symm.trans hstep
    exact hs.withAgenda rest
  · cases h.symm.trans hstep
  · cases h.symm.trans hstep
    exact (hs.withAgenda rest).external e

/-! ## Frames over the whole instruction set -/

theorem setReg_outside {s : State} {x r : Reg} (b : Byte) (h : (r == x) = false) : (s.setReg x b).reg r = s.reg r :=
  s.reg_setReg_ne b (by simpa using h)

theorem setRegAndFlag_outside {s : State} {x r : Reg} (b f : Byte) (h : (r == x || r == vf) = false) :
    (s.setRegAndFlag x b f).reg r = s.reg r := by
  rw [Bool.or_eq_false_iff] at h
  exact (setReg_outside f h.2).trans (setReg_outside b h.1)

theorem drawn_outside {s : State} (x y : Reg) (n : Nibble) {r : Reg} (h : (r == vf) = false) :
    (s.drawn x y n).reg r = s.reg r :=
  (setReg_outside _ h).trans (setReg_outside (s := s) _ h)

theorem loaded_outside {s : State} {x r : Reg} {bytes : List Byte} (hlen : bytes.length = x.val + 1)
    (h : decide (r ≤ x) = false) : (s.loaded bytes).reg r = s.reg r := by
  have hlt : x.val < r.val := by simpa using h
  exact (loadRegs_getElem bytes s.v 0 r.val r.isLt).trans (dif_neg (by omega))

/-- A handler that does not fault writes no general register but those listed for its instruction. -/
theorem effect_reg {i : Instr} {s u : State} {r : Reg} (h : i.effect s = .ok u) (hr : i.mayWrite r = false) :
    u.reg r = s.reg r := by
  cases i with
  | ldImm | addImm | ldReg | orReg | andReg | xorReg | rnd | ldVxDt => cases h; exact setReg_outside _ hr
  | addReg | sub | shr | subn | shl => cases h; exact setRegAndFlag_outside _ _ hr
  | drw x y n => rw [(effect_drw_eq_ok.mp h).2]; exact drawn_outside x y n hr
  | ldLoad x => rw [(State.loadedBlock_eq_ok.mp h).2]; exact loaded_outside (Store.readList_length _ _ _) hr
  | ldVxK x =>
    cases hk : s.leastKey <;> rw [Instr.effect, hk] at h <;> cases h
    · rfl
    · exact setReg_outside _ hr
  | _ => rw [effect_eq_frame h]; rfl

/-- Settles O19: a fault writes no register, and the handler those of `effect_reg`. -/
theorem registersWrittenOnlyAsListed : Obligations.RegistersWrittenOnlyAsListed := by
  intro i s t r h hr
  obtain ⟨u, hu, rfl⟩ | ⟨f, -, rfl⟩ := exec_cases h
  · have hkept := effect_reg hu hr
    exact hkept
  · rfl

/-- Settles O20: a fault writes only `STATUS` and the burst, and the handler the components of `Instr.frame`. -/
theorem componentsWrittenOnlyAsListed : Obligations.ComponentsWrittenOnlyAsListed := by
  intro i s t h
  obtain ⟨u, hu, rfl⟩ | ⟨f, -, rfl⟩ := exec_cases h
  · rw [effect_eq_frame hu]
    cases i <;> simp [Instr.frame, Instr.mnemonic, State.completeAt, State.byte]
  · simp

/-! ## The program counter -/

theorem pcTarget_written (n : Nat) : (pcTarget n).toNat = if n ≤ 4095 then n else 512 := State.reset.setPc_written n

theorem leastKey_isSome (s : State) : s.leastKey.isSome = (List.range 16).any s.keyDown := by
  rw [Bool.eq_iff_iff, List.any_eq_true]
  cases hk : s.leastKey with
  | none =>
    have hup := s.leastKey_eq_none.mp hk
    simp [hup]
  | some k =>
    have hdown := ((s.leastKey_eq_some k).mp hk).1
    have hlt : k < 16 := by
      by_contra hge
      rw [s.keyDown_of_ge (Nat.le_of_not_lt hge)] at hdown
      exact Bool.noConfusion hdown
    simpa using ⟨k, hlt, hdown⟩

/-- The `PC` of a completed cycle is the target of 10_state.md R18, kept in range. -/
theorem nextPc_toNat (i : Instr) {s : State} (hs : s.Inv) :
    (i.nextPc s).toNat = if i.target s ≤ 4095 then i.target s else 512 := by
  cases i with
  | ret =>
    rw [Instr.nextPc, pcTarget_of_lt (hs.entries _)]
    exact pcTarget_written _
  | ldVxK x =>
    have hpc : s.pc.toNat ≤ 4095 := Nat.le_of_lt_succ hs.counter
    have htarget : (Instr.ldVxK x).target s = if s.leastKey.isSome = true then s.pc.toNat + 2 else s.pc.toNat := by
      rw [leastKey_isSome]; rfl
    rw [htarget, Instr.nextPc]
    cases s.leastKey with
    | none => exact (if_pos hpc).symm
    | some k => exact pcTarget_written _
  | _ => exact pcTarget_written _

/-- Settles O21: the instruction completed, since `STATUS` is not `Faulted`, and left `PC` as in `nextPc_toNat`. -/
theorem programCounterFollowsTable : Obligations.ProgramCounterFollowsTable := by
  intro i s t hs _ _ h ht
  obtain ⟨u, -, rfl⟩ | ⟨f, -, rfl⟩ := exec_cases h
  · exact nextPc_toNat i hs
  · exact nomatch ht

/-! ## What no instruction reads -/

/-- The state with another framebuffer and another sound timer. -/
def State.withUnread (s : State) (vram : Store 8) (st : Timer) : State := { s with vram := vram, st := st }

/-- Two states that differ only in what the framebuffer and `ST` may reach, the registers only in the `VF` of `DRW`. -/
def AgreeUnread (i : Instr) (t u : State) : Prop :=
  u = { t with v := u.v, vram := u.vram, st := u.st, audio := u.audio } ∧
    ∀ r, i.mnemonic = "DRW" ∧ r = vf ∨ u.reg r = t.reg r

/-- Two handlers that fault alike, or leave states that agree. -/
def EffectsAgree (i : Instr) : Except CycleFault State → Except CycleFault State → Prop
  | .ok t, .ok u => AgreeUnread i t u
  | .error f, .error g => f = g
  | .ok _, .error _ => False
  | .error _, .ok _ => False

section

variable (i : Instr) (s : State) (vram : Store 8) (st : Timer)

theorem agree_withUnread : AgreeUnread i s (s.withUnread vram st) := ⟨rfl, fun _ => .inr rfl⟩

theorem effectsAgree_of_eq_map {r r' : Except CycleFault State} (h : r' = r.map (·.withUnread vram st)) :
    EffectsAgree i r r' := by
  subst h
  cases r with
  | ok u => exact agree_withUnread i u vram st
  | error f => exact rfl

theorem setI_withUnread (v : Nat) : (s.withUnread vram st).setI v = (s.setI v).map (·.withUnread vram st) := by
  unfold State.setI; split <;> rfl

theorem push_withUnread (v : Word) : (s.withUnread vram st).push v = (s.push v).map (·.withUnread vram st) := by
  unfold State.push
  by_cases h : s.sp < s.config.stackDepth
  · rw [if_pos h]; exact if_pos h
  · rw [if_neg h]; exact if_neg h

theorem popped_withUnread :
    (s.withUnread vram st).pop.map Prod.snd = (s.pop.map Prod.snd).map (·.withUnread vram st) := by
  unfold State.pop
  by_cases h : s.sp = 0
  · rw [if_pos h]; exact congrArg (Except.map Prod.snd) (if_pos h)
  · rw [if_neg h]; exact congrArg (Except.map Prod.snd) (if_neg h)

theorem writeBlock_withUnread (a : Nat) (bs : List Byte) :
    (s.withUnread vram st).writeBlock a bs = (s.writeBlock a bs).map (·.withUnread vram st) := by
  unfold State.writeBlock; split <;> rfl

theorem loadedBlock_withUnread (a n : Nat) :
    ((s.withUnread vram st).readBlock a n).map (s.withUnread vram st).loaded =
      ((s.readBlock a n).map s.loaded).map (·.withUnread vram st) := by
  unfold State.readBlock; split <;> rfl

theorem drawn_agree (x y : Reg) (n : Nibble) :
    AgreeUnread (.drw x y n) (s.drawn x y n) ((s.withUnread vram st).drawn x y n) := by
  refine ⟨rfl, fun r => ?_⟩
  by_cases hr : r = vf
  · exact .inl ⟨rfl, hr⟩
  · have hr : (r == vf) = false := by simpa using hr
    have hs := drawn_outside (s := s) x y n hr
    have hs' := drawn_outside (s := s.withUnread vram st) x y n hr
    exact .inr (hs'.trans hs.symm)

/-- No handler reads the framebuffer or `ST`, but for `DRW`, which takes its `VF` from the framebuffer. -/
theorem effects_agree : EffectsAgree i (i.effect s) (i.effect (s.withUnread vram st)) := by
  cases i with
  | ret => exact effectsAgree_of_eq_map _ vram st (popped_withUnread s vram st)
  | call => exact effectsAgree_of_eq_map _ vram st (push_withUnread s vram st s.pc)
  | ldI | addI | ldF => exact effectsAgree_of_eq_map _ vram st (setI_withUnread s vram st _)
  | ldB | ldStore => exact effectsAgree_of_eq_map _ vram st (writeBlock_withUnread s vram st _ _)
  | ldLoad => exact effectsAgree_of_eq_map _ vram st (loadedBlock_withUnread s vram st _ _)
  | drw x y n =>
    show EffectsAgree _ (if blockOutOfRange s.i.toNat (spriteBytes s.ext n) then _ else _)
      (if blockOutOfRange s.i.toNat (spriteBytes s.ext n) then _ else _)
    split
    · exact rfl
    · exact drawn_agree s vram st x y n
  | ldVxK x =>
    show EffectsAgree _ (.ok (s.leastKey.elim _ _)) (.ok (s.leastKey.elim _ _))
    cases s.leastKey <;> exact ⟨rfl, fun _ => .inr rfl⟩
  | _ => exact ⟨rfl, fun _ => .inr rfl⟩

theorem nextPc_withUnread : i.nextPc (s.withUnread vram st) = i.nextPc s := by cases i <;> rfl

end

/-- Agreement goes through the end of the cycle. -/
theorem AgreeUnread.completeAt {i : Instr} {t u : State} (h : AgreeUnread i t u) (pc : Word) :
    AgreeUnread i (t.completeAt pc) (u.completeAt pc) := by
  obtain ⟨hu, hregs⟩ := h
  refine ⟨?_, hregs⟩
  rw [hu]
  rfl

/-- Settles O22: the two handlers fault alike or leave states that agree, and the two `PC`s are one. -/
theorem framebufferAndSoundTimerAreUnread : Obligations.FramebufferAndSoundTimerAreUnread := by
  intro i s t u vram st ht hu
  show AgreeUnread i t u
  have hagree := effects_agree i s vram st
  obtain ⟨t', ht', rfl⟩ | ⟨f, ht', rfl⟩ := exec_cases ht <;>
    obtain ⟨u', hu', rfl⟩ | ⟨g, hu', rfl⟩ := exec_cases (s := s.withUnread vram st) hu <;> rw [ht', hu'] at hagree
  · rw [nextPc_withUnread]
    exact AgreeUnread.completeAt hagree _
  · exact hagree.elim
  · exact hagree.elim
  · cases hagree
    exact ⟨rfl, fun _ => .inr rfl⟩

/-! ## Reset and load -/

theorem turn_of_agenda {s : State} {e : Event} {rest : List Event} (ha : s.agenda = e :: rest) (he : e ≠ .cycle)
    (hw : e.waitsForBurst = false) : s.turn = .other e rest := by
  unfold State.turn
  rw [ha]
  cases e with
  | cycle => exact absurd rfl he
  | schedTick | setClockHz => exact nomatch hw
  | _ => rfl

theorem outputs_other {s : State} {e : Event} {rest : List Event} (h : s.turn = .other e rest) :
    outputs s = s.externalOutputs e := by
  rw [outputs, h]

theorem reset_reg (x : Reg) : State.reset.reg x = 0#8 := by simp [State.reg, State.reset]

theorem reset_keyDown (k : Nat) : State.reset.keyDown k = false := by simp [State.keyDown, State.reset]

/-- Settles O59: both operations write the fixed state `State.reset` over the components of the table. -/
theorem resetLeavesTable : Obligations.ResetLeavesTable := by
  intro s rest e he ha
  obtain rfl | rfl := he <;>
    refine ⟨_, step_other s (turn_of_agenda ha nofun rfl), rfl, reset_reg, rfl, rfl, fun _ => rfl, rfl, rfl,
      reset_keyDown, fun _ => rfl, rfl, fun _ => rfl, rfl, rfl, rfl, ?_, ?_⟩
  · exact fun _ => ⟨rfl, rfl, rfl⟩
  · exact nofun
  · exact nofun
  · exact fun _ => ⟨rfl, rfl, rfl⟩

theorem loadProgram_of_fonts {s : State} {f : Fonts} (rom : List Byte) (h : s.fonts = some f) :
    s.loadProgram rom = { s.doReset with mem := loadedMemory f rom } := by
  rw [State.loadProgram, h]

theorem loadProgram_of_no_fonts {s : State} (rom : List Byte) (h : s.fonts = none) : s.loadProgram rom = s.doReset := by
  rw [State.loadProgram, h]

/-- What a block write leaves at each address, with the block read by default 0 past its end. -/
theorem read_writeList_getD (bs : List Byte) (m : Store 8) (a b : Nat) :
    Store.read (Store.writeList m a bs) b =
      if a ≤ b ∧ b < a + bs.length then bs.getD (b - a) 0#8 else Store.read m b := by
  rw [Store.read_writeList]
  split
  · exact (List.getD_eq_getElem _ _ _).symm
  · rfl

theorem getD_take (bs : List Byte) (n k : Nat) (h : k < n) : (bs.take n).getD k 0#8 = bs.getD k 0#8 := by
  simp [List.getD, h]

/-- Memory after a load, byte by byte (70_reset_and_hazards.md R243, 10_state.md R34). -/
theorem read_loadedMemory {f : Fonts} (rom : List Byte) (a : Nat) (hstd : f.std.length = 80) (hext : f.ext.length = 320) :
    Store.read (w := 8) (loadedMemory f rom) a =
      if a < 80 then f.std.getD a 0#8
      else if a < 400 then f.ext.getD (a - 80) 0#8
      else if 512 ≤ a ∧ a < 4096 then rom.getD (a - 512) 0#8
      else 0#8 := by
  unfold loadedMemory Config.progBase Config.progMax Config.fontExtBase Config.fontStdBase
  rw [read_writeList_getD, read_writeList_getD, read_writeList_getD, hstd, hext, List.length_take, Store.read_nil]
  by_cases hlow : a < 80
  · rw [if_pos hlow, if_neg (by omega), if_neg (by omega), if_pos (by omega), Nat.sub_zero]
  by_cases hfont : a < 400
  · rw [if_neg hlow, if_pos hfont, if_neg (by omega), if_pos (by omega)]
  rw [if_neg hlow, if_neg hfont, if_neg (c := 80 ≤ a ∧ _) (by omega), if_neg (c := 0 ≤ a ∧ _) (by omega)]
  by_cases hprog : 512 ≤ a ∧ a < 4096
  · rw [if_pos hprog]
    by_cases hlen : a - 512 < rom.length
    · rw [if_pos (by omega), getD_take _ _ _ (by omega)]
    · rw [if_neg (by omega), List.getD_eq_default _ _ (Nat.le_of_not_lt hlen)]
  · rw [if_neg hprog, if_neg (by omega)]

/-- Settles O60: by whether the font store is filled. -/
theorem loadPlacesFontsAndProgram : Obligations.LoadPlacesFontsAndProgram := by
  intro s rest rom hs ha
  have hturn : s.turn = .other (.loadProgram rom) rest := turn_of_agenda ha nofun rfl
  refine ⟨({ s with agenda := rest } : State).loadProgram rom, ({ s with agenda := rest } : State).doReset,
    step_other s hturn, step_other _ (turn_of_agenda (e := .reset) rfl nofun rfl), fun f hf => ?_, fun hf => ?_⟩
  · obtain ⟨hstd, hext⟩ := hs.fontSizes f hf
    have hload := loadProgram_of_fonts (s := { s with agenda := rest }) rom hf
    rw [hload]
    refine ⟨rfl, ?_, fun a => read_loadedMemory rom a hstd hext⟩
    rw [outputs_other hturn, State.externalOutputs, hf]
    exact if_neg nofun
  · have hload := loadProgram_of_no_fonts (s := { s with agenda := rest }) rom hf
    exact ⟨hload, by rw [outputs_other hturn, State.externalOutputs, if_pos hf]⟩

end Sys2Proof.Machine

/-! ## The turn of the CPU -/

namespace Sys2Proof.Machine

theorem turn_of_agenda_nil {s : State} (ha : s.agenda = []) : s.turn = .cpu [] := by
  unfold State.turn
  rw [ha]

theorem turn_of_agenda_cycle {s : State} {rest : List Event} (ha : s.agenda = .cycle :: rest) : s.turn = .cpu rest := by
  unfold State.turn
  rw [ha]

/-- A host operation that waits for a running burst leaves the turn to the CPU and keeps its place
(40_cycle_and_scheduler.md R90, R91). -/
theorem turn_of_waiting {s : State} {e : Event} {rest : List Event} (hs : s.status = .running)
    (ha : s.agenda = e :: rest) (hw : e.waitsForBurst = true) (hb : s.burst ≠ 0) : s.turn = .cpu s.agenda := by
  have hwaits : (e.waitsForBurst && s.burst != 0 && s.status == .running) = true := by simp [hw, hb, hs]
  unfold State.turn
  rw [ha]
  cases e with
  | schedTick | setClockHz => exact if_pos hwaits
  | _ => exact nomatch hw

/-- Settles O6: one clause for each shape of the agenda. -/
theorem cpuHasTheTurn : Obligations.CpuHasTheTurn := fun _ hs =>
  ⟨fun ha => ⟨turn_of_agenda_nil ha, hs⟩, fun _ ha => ⟨turn_of_agenda_cycle ha, hs⟩,
    fun _ _ ha hw hb => ⟨turn_of_waiting hs ha hw hb, hs⟩⟩

/-! ## Stored bytes and the fetch -/

theorem frame_ir (i : Instr) (s u : State) : (i.frame s u).ir = s.ir := by cases i <;> rfl

/-- No instruction writes `IR`, whether it completes or faults. -/
theorem exec_ir {i : Instr} {s t : State} (h : exec i s = .next t) : t.ir = s.ir := by
  obtain ⟨u, hu, rfl⟩ | ⟨f, -, rfl⟩ := exec_cases h
  · have hir : u.ir = s.ir := by rw [effect_eq_frame hu, frame_ir]
    exact hir
  · rfl

/-- A cycle that can fetch leaves the word at `PC` in `IR` (40_cycle_and_scheduler.md R81). -/
theorem cycle_ir {s t : State} (hpc : s.pc.toNat ≤ 4094) (h : cycle s = .next t) : t.ir = s.fetchWord := by
  obtain ⟨htop, -⟩ | ⟨-, i, -, hc⟩ | ⟨-, e, -, hc⟩ := cycle_cases s
  · omega
  · exact exec_ir (hc.symm.trans h)
  · cases hc.symm.trans h
    rfl

theorem step_ir_toNat {s t : State} {rest : List Event} (hrun : s.cpuRuns rest) (hpc : s.pc.toNat ≤ 4094)
    (h : step s = .next t) :
    t.ir.toNat = (s.byte s.pc.toNat).toNat * 256 + (s.byte (s.pc.toNat + 1)).toNat := by
  have hir : t.ir = s.fetchWord := cycle_ir (s := s.atTurn rest) hpc ((step_cpu s hrun).symm.trans h)
  rw [hir]
  exact wordOfBytes_toNat _ _

/-- An instruction whose handler stores a block at `I`, inside memory, leaves the block there and every other byte as it was. -/
theorem exec_byte_of_writeBlock {i : Instr} {s t : State} {block : List Byte}
    (heffect : i.effect s = s.writeBlock (s.dataAddr 0) block) (hin : s.i.toNat + block.length ≤ 4096)
    (h : exec i s = .next t) (a : Nat) : t.byte a = s.byteWithStored block a := by
  rw [exec_eq_endWith, heffect, s.writeBlock_in (a := s.dataAddr 0) hin] at h
  cases h
  exact read_writeList_getD block s.mem (s.dataAddr 0) a

/-- Settles O42: the next cycle's `IR` is the word at `PC`, of the bytes the store left. -/
theorem storeIsSeenByNextFetch : Obligations.StoreIsSeenByNextFetch := by
  intro x s t m u rest hmem hrun hpc hstep
  rw [step_ir_toNat hrun hpc hstep, hmem, hmem]
  refine ⟨fun hin h => ?_, fun hin h => ?_⟩
  · have hblock := exec_byte_of_writeBlock (block := bcdDigits (s.reg x)) rfl (by rw [bcdDigits_length]; omega) h
    rw [hblock, hblock]
  · have hblock := exec_byte_of_writeBlock (block := s.regsUpTo x) rfl (by rw [State.regsUpTo_length]; omega) h
    rw [hblock, hblock]

end Sys2Proof.Machine

/-! ## Encoding (30_encoding.md) -/

namespace Sys2Proof

/-! ### The round trip from an instruction -/

/-- The word of an instruction a machine has decodes to it: one law for each instruction. -/
theorem decodeWord_encode : ∀ i : Instr, Laws.RoundTrip.Statement i
  | .cls => Laws.RoundTrip.cls
  | .ret => Laws.RoundTrip.ret
  | .low => Laws.RoundTrip.low
  | .high => Laws.RoundTrip.high
  | .jp nnn => Laws.RoundTrip.jp nnn
  | .call nnn => Laws.RoundTrip.call nnn
  | .seImm x kk => Laws.RoundTrip.seImm x kk
  | .sneImm x kk => Laws.RoundTrip.sneImm x kk
  | .seReg x y n => Laws.RoundTrip.seReg x y n
  | .ldImm x kk => Laws.RoundTrip.ldImm x kk
  | .addImm x kk => Laws.RoundTrip.addImm x kk
  | .ldReg x y => Laws.RoundTrip.ldReg x y
  | .orReg x y => Laws.RoundTrip.orReg x y
  | .andReg x y => Laws.RoundTrip.andReg x y
  | .xorReg x y => Laws.RoundTrip.xorReg x y
  | .addReg x y => Laws.RoundTrip.addReg x y
  | .sub x y => Laws.RoundTrip.sub x y
  | .shr x y => Laws.RoundTrip.shr x y
  | .subn x y => Laws.RoundTrip.subn x y
  | .shl x y => Laws.RoundTrip.shl x y
  | .sneReg x y n => Laws.RoundTrip.sneReg x y n
  | .ldI nnn => Laws.RoundTrip.ldI nnn
  | .jpV0 nnn => Laws.RoundTrip.jpV0 nnn
  | .rnd x kk => Laws.RoundTrip.rnd x kk
  | .drw x y n => Laws.RoundTrip.drw x y n
  | .skp x => Laws.RoundTrip.skp x
  | .sknp x => Laws.RoundTrip.sknp x
  | .ldVxDt x => Laws.RoundTrip.ldVxDt x
  | .ldVxK x => Laws.RoundTrip.ldVxK x
  | .ldDtVx x => Laws.RoundTrip.ldDtVx x
  | .ldStVx x => Laws.RoundTrip.ldStVx x
  | .addI x => Laws.RoundTrip.addI x
  | .ldF x => Laws.RoundTrip.ldF x
  | .ldB x => Laws.RoundTrip.ldB x
  | .ldStore x => Laws.RoundTrip.ldStore x
  | .ldLoad x => Laws.RoundTrip.ldLoad x

theorem decode_of_decodeWord {modeOps : Bool} {hi lo : Byte} {i : Instr} (rest : List Byte)
    (h : decodeWord modeOps (wordOfBytes hi lo) = .ok i) : decode modeOps (hi :: lo :: rest) = .ok (i, rest) := by
  simp only [decode, h]

/-- Settles O1: the two bytes are put together to the instruction's word, and the word decodes to the instruction. -/
theorem decodeOfEncodedBytes : Obligations.DecodeOfEncodedBytes := by
  intro modeOps i rest hwf
  refine decode_of_decodeWord rest ?_
  rw [wordOfBytes_bytes]
  exact decodeWord_encode i modeOps hwf

/-! ### The round trip from a word -/

section Fields
variable {w : Word} {f : Nibble}

theorem packNnn_of_family (hf : family w = f) : packNnn f (fieldNnn w) = w := hf ▸ packNnn_fields w

theorem packXkk_of_family (hf : family w = f) : packXkk f (fieldX w) (fieldKk w) = w := hf ▸ packXkk_fields w

theorem packXyn_of_family (hf : family w = f) : packXyn f (fieldX w) (fieldY w) (fieldN w) = w :=
  hf ▸ packXyn_fields w

theorem packNnn_of_key {key : Addr} (hf : family w = f) (hk : fieldNnn w = key) : packNnn f key = w :=
  hk ▸ packNnn_of_family hf

theorem packXkk_of_key {key : Byte} (hf : family w = f) (hk : fieldKk w = key) : packXkk f (fieldX w) key = w :=
  hk ▸ packXkk_of_family hf

theorem packXyn_of_key {key : Nibble} (hf : family w = f) (hk : fieldN w = key) :
    packXyn f (fieldX w) (fieldY w) key = w :=
  hk ▸ packXyn_of_family hf

end Fields

/-! ### The keys of the second level (30_encoding.md R64, R66) -/

/-- The 12-bit values that select an instruction of family 0. -/
def keys0 : Bool → List Addr
  | true => [0x0E0#12, 0x0EE#12, 0x0FE#12, 0x0FF#12]
  | false => [0x0E0#12, 0x0EE#12]

/-- The low nibbles that select an instruction of family 8. -/
def keys8 : List Nibble := [0x0#4, 0x1#4, 0x2#4, 0x3#4, 0x4#4, 0x5#4, 0x6#4, 0x7#4, 0xE#4]

/-- The low bytes that select an instruction of family E. -/
def keysE : List Byte := [0x9E#8, 0xA1#8]

/-- The low bytes that select an instruction of family F. -/
def keysF : List Byte := [0x07#8, 0x0A#8, 0x15#8, 0x18#8, 0x1E#8, 0x29#8, 0x33#8, 0x55#8, 0x65#8]

/-- The word is in a family with a second level, and its key there selects nothing (30_encoding.md R67). That such words are
the decode misses is `decodeWord_eq_miss_iff`. -/
def HasNoKey (modeOps : Bool) (w : Word) : Prop :=
  (family w = 0x0#4 ∧ fieldNnn w ∉ keys0 modeOps) ∨ (family w = 0x8#4 ∧ fieldN w ∉ keys8) ∨
  (family w = 0xE#4 ∧ fieldKk w ∉ keysE) ∨ (family w = 0xF#4 ∧ fieldKk w ∉ keysF)

section Words
variable {modeOps : Bool} {w : Word}

/-- R67: such a word matches no row of the table, at either level. -/
theorem decodeWord_of_hasNoKey (h : HasNoKey modeOps w) : decodeWord modeOps w = .error (.miss w) := by
  obtain ⟨hf, hk⟩ | ⟨hf, hk⟩ | ⟨hf, hk⟩ | ⟨hf, hk⟩ := h
  · cases modeOps <;> simp_all [decodeWord, decodeFamily0, keys0]
  · simp_all [decodeWord, decodeFamily8, keys8]
  · simp_all [decodeWord, decodeFamilyE, keysE]
  · simp_all [decodeWord, decodeFamilyF, keysF]

/-- A word an instruction of the machine encodes to. -/
def IsEncoded (modeOps : Bool) (w : Word) : Prop := ∃ i : Instr, encode i = w ∧ i.wellFormed modeOps = true

theorem isEncoded_family0 (hf : family w = 0x0#4) (hk : fieldNnn w ∈ keys0 modeOps) : IsEncoded modeOps w := by
  cases modeOps with
  | true =>
    simp only [keys0, List.mem_cons, List.not_mem_nil, or_false] at hk
    obtain h | h | h | h := hk
    · exact ⟨.cls, packNnn_of_key hf h, rfl⟩
    · exact ⟨.ret, packNnn_of_key hf h, rfl⟩
    · exact ⟨.low, packNnn_of_key hf h, rfl⟩
    · exact ⟨.high, packNnn_of_key hf h, rfl⟩
  | false =>
    simp only [keys0, List.mem_cons, List.not_mem_nil, or_false] at hk
    obtain h | h := hk
    · exact ⟨.cls, packNnn_of_key hf h, rfl⟩
    · exact ⟨.ret, packNnn_of_key hf h, rfl⟩

theorem isEncoded_family8 (hf : family w = 0x8#4) (hk : fieldN w ∈ keys8) : IsEncoded modeOps w := by
  simp only [keys8, List.mem_cons, List.not_mem_nil, or_false] at hk
  obtain h | h | h | h | h | h | h | h | h := hk
  · exact ⟨.ldReg _ _, packXyn_of_key hf h, rfl⟩
  · exact ⟨.orReg _ _, packXyn_of_key hf h, rfl⟩
  · exact ⟨.andReg _ _, packXyn_of_key hf h, rfl⟩
  · exact ⟨.xorReg _ _, packXyn_of_key hf h, rfl⟩
  · exact ⟨.addReg _ _, packXyn_of_key hf h, rfl⟩
  · exact ⟨.sub _ _, packXyn_of_key hf h, rfl⟩
  · exact ⟨.shr _ _, packXyn_of_key hf h, rfl⟩
  · exact ⟨.subn _ _, packXyn_of_key hf h, rfl⟩
  · exact ⟨.shl _ _, packXyn_of_key hf h, rfl⟩

theorem isEncoded_familyE (hf : family w = 0xE#4) (hk : fieldKk w ∈ keysE) : IsEncoded modeOps w := by
  simp only [keysE, List.mem_cons, List.not_mem_nil, or_false] at hk
  obtain h | h := hk
  · exact ⟨.skp _, packXkk_of_key hf h, rfl⟩
  · exact ⟨.sknp _, packXkk_of_key hf h, rfl⟩

theorem isEncoded_familyF (hf : family w = 0xF#4) (hk : fieldKk w ∈ keysF) : IsEncoded modeOps w := by
  simp only [keysF, List.mem_cons, List.not_mem_nil, or_false] at hk
  obtain h | h | h | h | h | h | h | h | h := hk
  · exact ⟨.ldVxDt _, packXkk_of_key hf h, rfl⟩
  · exact ⟨.ldVxK _, packXkk_of_key hf h, rfl⟩
  · exact ⟨.ldDtVx _, packXkk_of_key hf h, rfl⟩
  · exact ⟨.ldStVx _, packXkk_of_key hf h, rfl⟩
  · exact ⟨.addI _, packXkk_of_key hf h, rfl⟩
  · exact ⟨.ldF _, packXkk_of_key hf h, rfl⟩
  · exact ⟨.ldB _, packXkk_of_key hf h, rfl⟩
  · exact ⟨.ldStore _, packXkk_of_key hf h, rfl⟩
  · exact ⟨.ldLoad _, packXkk_of_key hf h, rfl⟩

theorem nibble_mem (f : Nibble) : f ∈ [0x0#4, 0x1#4, 0x2#4, 0x3#4, 0x4#4, 0x5#4, 0x6#4, 0x7#4, 0x8#4, 0x9#4, 0xA#4,
    0xB#4, 0xC#4, 0xD#4, 0xE#4, 0xF#4] := by
  decide +revert

/-- Every word with a key, and every word of a family without a second level, is the word of an instruction. -/
theorem isEncoded_of_not_hasNoKey (h : ¬HasNoKey modeOps w) : IsEncoded modeOps w := by
  simp only [HasNoKey, not_or, not_and, not_not] at h
  obtain ⟨key0, key8, keyE, keyF⟩ := h
  have hfam := nibble_mem (family w)
  simp only [List.mem_cons, List.not_mem_nil, or_false] at hfam
  obtain f | f | f | f | f | f | f | f | f | f | f | f | f | f | f | f := hfam
  · exact isEncoded_family0 f (key0 f)
  · exact ⟨.jp _, packNnn_of_family f, rfl⟩
  · exact ⟨.call _, packNnn_of_family f, rfl⟩
  · exact ⟨.seImm _ _, packXkk_of_family f, rfl⟩
  · exact ⟨.sneImm _ _, packXkk_of_family f, rfl⟩
  · exact ⟨.seReg _ _ _, packXyn_of_family f, rfl⟩
  · exact ⟨.ldImm _ _, packXkk_of_family f, rfl⟩
  · exact ⟨.addImm _ _, packXkk_of_family f, rfl⟩
  · exact isEncoded_family8 f (key8 f)
  · exact ⟨.sneReg _ _ _, packXyn_of_family f, rfl⟩
  · exact ⟨.ldI _, packNnn_of_family f, rfl⟩
  · exact ⟨.jpV0 _, packNnn_of_family f, rfl⟩
  · exact ⟨.rnd _ _, packXkk_of_family f, rfl⟩
  · exact ⟨.drw _ _ _, packXyn_of_family f, rfl⟩
  · exact isEncoded_familyE f (keyE f)
  · exact isEncoded_familyF f (keyF f)

/-- The two ways a word decodes. -/
theorem decodeWord_cases (modeOps : Bool) (w : Word) :
    (HasNoKey modeOps w ∧ decodeWord modeOps w = .error (.miss w)) ∨
    (¬HasNoKey modeOps w ∧ ∃ i, decodeWord modeOps w = .ok i ∧ encode i = w ∧ i.wellFormed modeOps = true) := by
  by_cases h : HasNoKey modeOps w
  · exact .inl ⟨h, decodeWord_of_hasNoKey h⟩
  · obtain ⟨i, rfl, hwf⟩ := isEncoded_of_not_hasNoKey h
    exact .inr ⟨h, i, decodeWord_encode i modeOps hwf, rfl, hwf⟩

theorem decodeWord_eq_miss_iff : decodeWord modeOps w = .error (.miss w) ↔ HasNoKey modeOps w := by
  obtain ⟨h, hd⟩ | ⟨h, i, hd, -⟩ := decodeWord_cases modeOps w <;> simp [h, hd]

end Words

/-- Settles O2: a word that decodes is the word of an instruction, and by the round trip it is that one. -/
theorem encodeOfDecodedWord : Obligations.EncodeOfDecodedWord := by
  intro modeOps w i h
  obtain ⟨-, hmiss⟩ | ⟨-, j, hj, henc⟩ := decodeWord_cases modeOps w
  · exact nomatch hmiss.symm.trans h
  · cases hj.symm.trans h
    exact henc

/-! ### The decode misses as numbers -/

theorem family_eq_iff (w : Word) (f : Nibble) : family w = f ↔ w.toNat / 4096 = f.toNat := by
  rw [← BitVec.toNat_inj, family_toNat]
  omega

theorem mem_iff_toNat_mem {n : Nat} (k : BitVec n) (keys : List (BitVec n)) : k ∈ keys ↔ k.toNat ∈ keys.map BitVec.toNat :=
  (List.mem_map_of_injective fun _ _ => BitVec.eq_of_toNat_eq).symm

theorem fieldNnn_not_mem_keys0_iff {modeOps : Bool} {w : Word} (hf : w.toNat / 4096 = 0) :
    fieldNnn w ∉ keys0 modeOps ↔ w.toNat ∉ [0x0E0, 0x0EE] ∧ (modeOps = true → w.toNat ∉ [0x0FE, 0x0FF]) := by
  rw [mem_iff_toNat_mem, fieldNnn_toNat, Nat.mod_eq_of_lt (by omega)]
  cases modeOps <;> simp [keys0, and_assoc]

theorem not_mem_keys8_iff (n : Nibble) : n ∉ keys8 ↔ n.toNat ∈ [0x8, 0x9, 0xA, 0xB, 0xC, 0xD, 0xF] := by
  decide +revert

/-- Settles O4: the words without a key, their fields read as numbers. -/
theorem decodeMissesAreExactlyThoseListed : Obligations.DecodeMissesAreExactlyThoseListed := by
  intro modeOps w
  rw [decodeWord_eq_miss_iff, HasNoKey]
  simp only [family_eq_iff]
  refine or_congr (and_congr_right fieldNnn_not_mem_keys0_iff) (or_congr (and_congr_right fun _ => ?_)
    (or_congr (and_congr_right fun _ => not_congr ?_) (and_congr_right fun _ => not_congr ?_)))
  · rw [not_mem_keys8_iff, fieldN_toNat]
  · rw [mem_iff_toNat_mem, fieldKk_toNat]; rfl
  · rw [mem_iff_toNat_mem, fieldKk_toNat]; rfl

/-! ### The opcode map -/

/-- The bits of a word that select its row: the family, and the key where the family has one (30_encoding.md R64). -/
def keyMask (f : Nibble) : Word :=
  if f = 0x0#4 then 0xFFFF#16
  else if f = 0x8#4 then 0xF00F#16
  else if f = 0xE#4 ∨ f = 0xF#4 then 0xF0FF#16
  else 0xF000#16

/-- The word with its operands cleared. -/
def keyOf (w : Word) : Word := w &&& keyMask (family w)

theorem family_keyMask (f : Nibble) : family (keyMask f) = 0xF#4 := by decide +revert

theorem family_and (v w : Word) : family (v &&& w) = family v &&& family w := BitVec.extractLsb'_and ..

theorem packNnn_and_mask (f : Nibble) (nnn mask : Addr) :
    packNnn f nnn &&& packNnn 0xF#4 mask = packNnn f (nnn &&& mask) := by
  rw [packNnn, packNnn, BitVec.and_append, show f &&& 0xF#4 = f from BitVec.and_allOnes]
  rfl

theorem packXkk_and_mask (f : Nibble) (x : Reg) (kk mask : Byte) :
    packXkk f x kk &&& packXkk 0xF#4 0 mask = packXkk f 0 (kk &&& mask) := by
  rw [packXkk, packXkk, BitVec.and_append, BitVec.and_append, show f &&& 0xF#4 = f from BitVec.and_allOnes]
  exact congrArg (f ++ · ++ _) BitVec.and_zero

theorem packXyn_and_mask (f : Nibble) (x y : Reg) (n mask : Nibble) :
    packXyn f x y n &&& packXyn 0xF#4 0 0 mask = packXyn f 0 0 (n &&& mask) := by
  rw [packXyn, packXyn, BitVec.and_append, BitVec.and_append, BitVec.and_append,
    show f &&& 0xF#4 = f from BitVec.and_allOnes]
  exact congrArg₂ (f ++ · ++ · ++ _) BitVec.and_zero BitVec.and_zero

section
variable {w : Word}

theorem keyOf_eq_self (hm : keyMask (family w) = 0xFFFF#16) : keyOf w = w := by
  rw [keyOf, hm]
  exact BitVec.and_allOnes

theorem keyOf_eq_packNnn (hm : keyMask (family w) = 0xF000#16) : keyOf w = packNnn (family w) 0#12 := by
  rw [keyOf, hm]
  conv_lhs => rw [← packNnn_fields w]
  exact (packNnn_and_mask _ _ 0#12).trans (congrArg _ BitVec.and_zero)

theorem keyOf_eq_packXyn (hm : keyMask (family w) = 0xF00F#16) : keyOf w = packXyn (family w) 0 0 (fieldN w) := by
  rw [keyOf, hm]
  conv_lhs => rw [← packXyn_fields w]
  exact (packXyn_and_mask _ _ _ _ 0xF#4).trans (congrArg _ BitVec.and_allOnes)

theorem keyOf_eq_packXkk (hm : keyMask (family w) = 0xF0FF#16) : keyOf w = packXkk (family w) 0 (fieldKk w) := by
  rw [keyOf, hm]
  conv_lhs => rw [← packXkk_fields w]
  exact (packXkk_and_mask _ _ _ 0xFF#8).trans (congrArg _ BitVec.and_allOnes)

end

/-- A word without a key has none when its operands are cleared. -/
theorem HasNoKey.keyOf {modeOps : Bool} {w : Word} (h : HasNoKey modeOps w) : HasNoKey modeOps (keyOf w) := by
  obtain ⟨hf, hk⟩ | ⟨hf, hk⟩ | ⟨hf, hk⟩ | ⟨hf, hk⟩ := h
  · rw [keyOf_eq_self (by rw [hf]; rfl)]; exact .inl ⟨hf, hk⟩
  · rw [keyOf_eq_packXyn (by rw [hf]; rfl)]; exact .inr (.inl ⟨by rw [family_packXyn, hf], by rwa [fieldN_packXyn]⟩)
  · rw [keyOf_eq_packXkk (by rw [hf]; rfl)]
    exact .inr (.inr (.inl ⟨by rw [family_packXkk, hf], by rwa [fieldKk_packXkk]⟩))
  · rw [keyOf_eq_packXkk (by rw [hf]; rfl)]
    exact .inr (.inr (.inr ⟨by rw [family_packXkk, hf], by rwa [fieldKk_packXkk]⟩))

/-- The masks R66 lists are those of the two-level decode. -/
theorem opcodeMap_mask : ∀ row ∈ opcodeMap, row.mask = keyMask (family row.pattern) := by decide

theorem opcodeMap_pattern_decodes : ∀ row ∈ opcodeMap, decodeWord true row.pattern ≠ .error (.miss row.pattern) := by
  decide

theorem opcodeMap_mnemonic_inj {r r' : OpcodeRow} (h : r ∈ opcodeMap) (h' : r' ∈ opcodeMap)
    (heq : r.mnemonic = r'.mnemonic) : r = r' :=
  List.inj_on_of_nodup_map (f := OpcodeRow.mnemonic) (by decide) h h' heq

theorem opcodeMap_pattern_inj {r r' : OpcodeRow} (h : r ∈ opcodeMap) (h' : r' ∈ opcodeMap)
    (heq : r.pattern = r'.pattern) : r = r' :=
  List.inj_on_of_nodup_map (f := OpcodeRow.pattern) (by decide) h h' heq

/-- A word that matches a row is the row's pattern once its operands are cleared. -/
theorem pattern_eq_keyOf {row : OpcodeRow} {w : Word} (hrow : row ∈ opcodeMap) (h : w &&& row.mask = row.pattern) :
    row.pattern = keyOf w := by
  have hfam : family row.pattern = family w := by
    rw [← h, family_and, opcodeMap_mask row hrow, family_keyMask]
    exact BitVec.and_allOnes
  rw [keyOf, ← hfam, ← opcodeMap_mask row hrow, h]

/-- The row of the opcode map an instruction belongs to; it stands there by `Instr.row_mem`. -/
def Instr.row (i : Instr) : OpcodeRow := ⟨i.mnemonic, keyMask (family (encode i)), keyOf (encode i)⟩

/-- An instruction's row stands in the opcode map: its word with the operands cleared is the row's pattern. -/
theorem Instr.row_mem (i : Instr) : i.row ∈ opcodeMap := by
  unfold Instr.row
  cases i with
  | cls | ret | low | high => decide
  | jp | call | ldI | jpV0 =>
    simp only [encode, mnemonic]
    rw [keyOf_eq_packNnn (by rw [family_packNnn]; rfl), family_packNnn]
    decide
  | seImm | sneImm | ldImm | addImm | rnd =>
    simp only [encode, mnemonic]
    rw [keyOf_eq_packNnn (by rw [family_packXkk]; rfl), family_packXkk]
    decide
  | seReg | sneReg | drw =>
    simp only [encode, mnemonic]
    rw [keyOf_eq_packNnn (by rw [family_packXyn]; rfl), family_packXyn]
    decide
  | ldReg | orReg | andReg | xorReg | addReg | sub | shr | subn | shl =>
    simp only [encode, mnemonic]
    rw [keyOf_eq_packXyn (by rw [family_packXyn]; rfl), family_packXyn, fieldN_packXyn]
    decide
  | skp | sknp | ldVxDt | ldVxK | ldDtVx | ldStVx | addI | ldF | ldB | ldStore | ldLoad =>
    simp only [encode, mnemonic]
    rw [keyOf_eq_packXkk (by rw [family_packXkk]; rfl), family_packXkk, fieldKk_packXkk]
    decide

/-- Settles O3. A word that decodes matches the row of its instruction, and rows are told apart by their mnemonics and by
their patterns; a word that matches a row decodes, since what is left of it without operands does. -/
theorem opcodeMapDecidesInstruction : Obligations.OpcodeMapDecidesInstruction := by
  intro w row hrow
  constructor
  · intro hmatch
    have hpat := pattern_eq_keyOf hrow hmatch
    obtain ⟨hkey, -⟩ | ⟨-, i, hi, rfl, -⟩ := decodeWord_cases true w
    · exact absurd (decodeWord_of_hasNoKey (hpat ▸ hkey.keyOf)) (opcodeMap_pattern_decodes row hrow)
    · exact ⟨i, hi, congrArg OpcodeRow.mnemonic (opcodeMap_pattern_inj i.row_mem hrow hpat.symm)⟩
  · rintro ⟨i, hi, hname⟩
    obtain ⟨rfl, -⟩ := encodeOfDecodedWord true w i hi
    rw [← opcodeMap_mnemonic_inj i.row_mem hrow hname]
    rfl

/-! ### Worked encodings -/

/-- Settles O5: eleven words, each run through the decoder. -/
theorem workedEncodingsDecode : Obligations.WorkedEncodingsDecode := by
  unfold Obligations.WorkedEncodingsDecode
  decide

end Sys2Proof

/-! ## The cycle and the scheduler (40_cycle_and_scheduler.md) -/

namespace Sys2Proof.Machine

/-! ### How a cycle ends -/

/-- `IR` once the fetch of the next cycle is over: the word at `PC`, or what it was when the fetch itself faults
(40_cycle_and_scheduler.md R81). -/
def State.fetchedIr (s : State) : Word := if s.pc.toNat < 4095 then s.fetchWord else s.ir

theorem fetchedIr_of_lt {s : State} (h : s.pc.toNat < 4095) : s.fetchedIr = s.fetchWord := if_pos h

theorem fetchedIr_of_ge {s : State} (h : 4095 ≤ s.pc.toNat) : s.fetchedIr = s.ir := if_neg (Nat.not_lt.mpr h)

theorem frame_burst (i : Instr) (s u : State) : (i.frame s u).burst = s.burst := by cases i <;> rfl

theorem effect_burst {i : Instr} {s u : State} (h : i.effect s = .ok u) : u.burst = s.burst := by
  rw [effect_eq_frame h, frame_burst]

/-- The two ends of a cycle: it completes with `STATUS` and the burst kept, or it faults and leaves the state it began in but
for what the fetch and the fault write. -/
theorem cycle_completes_or_faults {s t : State} (h : cycle s = .next t) :
    (t.status = s.status ∧ t.burst = s.burst) ∨ ∃ f, t = ({ s with ir := s.fetchedIr } : State).faulted f := by
  obtain ⟨hpc, hc⟩ | ⟨hpc, i, -, hc⟩ | ⟨-, e, -, hc⟩ := cycle_cases s <;> rw [hc] at h
  · cases h
    exact .inr ⟨_, by rw [fetchedIr_of_ge hpc]⟩
  · obtain ⟨u, hu, rfl⟩ | ⟨f, -, rfl⟩ := exec_cases h
    · have hstatus := effect_status hu
      have hburst := effect_burst hu
      exact .inl ⟨hstatus, hburst⟩
    · exact .inr ⟨f, by rw [fetchedIr_of_lt hpc]⟩
  · cases h
    exact .inl ⟨rfl, rfl⟩

/-- The same of a step in which the CPU runs. -/
theorem step_completes_or_faults {s t : State} {rest : List Event} (hrun : s.cpuRuns rest) (h : step s = .next t) :
    (t.status = .running ∧ t.burst = s.burst - 1) ∨
      ∃ f, t = ({ s.atTurn rest with ir := s.fetchedIr } : State).faulted f := by
  rw [step_cpu s hrun] at h
  obtain ⟨hstatus, hburst⟩ | hfault := cycle_completes_or_faults h
  · exact .inl ⟨hstatus.trans hrun.2, hburst⟩
  · exact .inr hfault

/-- Settles O11: a cycle that completes keeps `STATUS` at `Running`, and what a faulting one leaves is said once in
`cycle_completes_or_faults`. -/
theorem faultsArePrecise : Obligations.FaultsArePrecise := by
  intro s t rest f hrun hstep hf
  obtain ⟨hstatus, -⟩ | ⟨g, rfl⟩ := step_completes_or_faults hrun hstep
  · cases hstatus.symm.trans hf
  · cases hf
    rfl

/-- Settles O16: by how the cycle ends. -/
theorem burstCountsCycles : Obligations.BurstCountsCycles := by
  intro s t rest hrun hstep
  obtain ⟨hstatus, hburst⟩ | ⟨f, rfl⟩ := step_completes_or_faults hrun hstep
  · exact ⟨fun _ => hburst, fun hnot => absurd hstatus hnot⟩
  · exact ⟨nofun, fun _ => rfl⟩

/-! ### What a cycle emits -/

theorem outputs_cpu {s : State} {rest : List Event} (h : s.cpuRuns rest) : outputs s = cycleOutputs (s.atTurn rest) := by
  simp only [outputs, h.1, h.2, State.atTurn]

theorem cycleOutputs_of_running {s t : State} (h : cycle s = .next t) (ht : t.status = .running) :
    cycleOutputs s = (if s.misses then [.decodeMiss s.fetchWord s.pc] else []) ++ [.traceStrobe t] := by
  simp only [cycleOutputs, h, ht]

theorem cycleOutputs_of_faulted {s t : State} {f : CycleFault} (h : cycle s = .next t) (ht : t.status = .faulted f) :
    cycleOutputs s = [.faultReport f] := by
  simp only [cycleOutputs, h, ht]

/-- Settles O15: before the strobe of a completed cycle stands at most the report of a decode miss. -/
theorem traceStrobesCompletedCycles : Obligations.TraceStrobesCompletedCycles := by
  intro s t rest hrun hstep
  rw [step_cpu s hrun] at hstep
  rw [outputs_cpu hrun]
  refine ⟨fun ht => ⟨_, cycleOutputs_of_running hstep ht, fun u => ?_⟩, fun f ht => cycleOutputs_of_faulted hstep ht⟩
  split <;> simp

/-! ### The cases of a step in which the CPU has the turn -/

theorem decodeWord_of_decode {modeOps : Bool} {hi lo : Byte} {rest rest' : List Byte} {i : Instr}
    (h : decode modeOps (hi :: lo :: rest) = .ok (i, rest')) : decodeWord modeOps (wordOfBytes hi lo) = .ok i := by
  rw [decode] at h
  cases hd : decodeWord modeOps (wordOfBytes hi lo) with
  | ok j => rw [hd] at h; cases h; rfl
  | error e => rw [hd] at h; cases h

theorem step_instr {s : State} {rest : List Event} {i : Instr} (hrun : s.cpuRuns rest) (hpc : s.pc.toNat ≤ 4094)
    (hd : decodeWord s.config.modeOps s.fetchWord = .ok i) :
    step s = exec i { s.atTurn rest with ir := s.fetchWord } :=
  (step_cpu s hrun).trans (cycle_instr (s.atTurn rest) (Nat.lt_succ_of_le hpc) hd)

/-- Settles O7: the word of `IR` is the one the two bytes at `PC` form. -/
theorem stepRunsDecodedInstruction : Obligations.StepRunsDecodedInstruction := fun s _ _ hrun hpc hd =>
  ⟨s.fetchWord, wordOfBytes_toNat _ _, step_instr hrun hpc (decodeWord_of_decode hd)⟩

/-- Settles O9: the check of the fetch comes before the fetch. -/
theorem fetchAtTopFaults : Obligations.FetchAtTopFaults := by
  intro s rest hrun hpc
  have hpc' : s.pc = 4095#16 := BitVec.eq_of_toNat_eq hpc
  have hcycle : cycle (s.atTurn rest) = .next ((s.atTurn rest).faulted (.fetchOutOfRange 4095#16)) :=
    hpc' ▸ cycle_fetchFault (s.atTurn rest) hpc.ge
  exact ⟨(step_cpu s hrun).trans hcycle, (outputs_cpu hrun).trans (cycleOutputs_of_faulted hcycle rfl)⟩

theorem outputs_cpu_faulted {s : State} {rest : List Event} {f : CycleFault} (hturn : s.turn = .cpu rest)
    (hf : s.status = .faulted f) : outputs s = [] := by
  simp only [outputs, hturn, hf]

/-- Settles O10: of the four answers of a step, those of a CPU that has the turn and is `Faulted`. -/
theorem faultedMachineRunsNoCycle : Obligations.FaultedMachineRunsNoCycle := by
  intro s rest f hturn hf
  refine and_assoc.mp ⟨?_, outputs_cpu_faulted hturn hf⟩
  obtain ⟨_, hrun, -⟩ | ⟨rest', g, hturn', -, ha, h⟩ | ⟨g, hg, ha, h⟩ | ⟨e, rest', hother, -⟩ := step_cases s
  · cases hf.symm.trans hrun.2
  · cases hturn.symm.trans hturn'
    exact ⟨fun hnil => absurd hnil ha, fun _ => h⟩
  · cases hf.symm.trans hg
    exact ⟨fun _ => h, fun hne => absurd ha hne⟩
  · exact absurd hother (turn_unique hturn)

/-- Settles O34: the target is the `PC` the jump was fetched from, so that only `IR` and the audio step are left. -/
theorem selfJumpIsFixedPoint : Obligations.SelfJumpIsFixedPoint := by
  intro s rest nnn hrun htarget hpc hd
  have hback : pcTarget nnn.toNat = s.pc :=
    BitVec.eq_of_toNat_eq ((pcTarget_of_lt (by omega)).trans htarget.symm)
  refine ⟨_, step_instr hrun hpc hd, ?_, State.audioStep_iff _⟩
  rw [State.setPc, hback]
  rfl

/-! ### The scheduler (40_cycle_and_scheduler.md R88, R89) -/

/-- A host operation that waits for a burst has its turn once none is running (40_cycle_and_scheduler.md R90, R91). -/
theorem turn_of_waited {s : State} {e : Event} {rest : List Event} (ha : s.agenda = e :: rest)
    (hw : e.waitsForBurst = true) (hidle : s.burst = 0 ∨ s.status ≠ .running) : s.turn = .other e rest := by
  have hready : ¬((e.waitsForBurst && s.burst != 0 && s.status == .running) = true) := by
    obtain hb | hs := hidle
    · simp [hb]
    · simp [hs]
  unfold State.turn
  rw [ha]
  cases e with
  | schedTick | setClockHz => exact if_neg hready
  | _ => exact nomatch hw

theorem burstLength_eq_max (hz elapsed : Rat) : (burstLength hz elapsed : Int) = max 0 ⌊hz * elapsed⌋ :=
  (Int.toNat_eq_max _).trans (max_comm _ _)

theorem schedTick_first {s : State} (now : Rat) (h : s.lastT = none) :
    s.schedTick now = { s with lastT := some now, burst := 0 } := by
  rw [State.schedTick, h]

/-- Every `SchedTick` but the first, at a clock rate that is set: no free value is drawn for the rate. -/
theorem schedTick_later {s : State} {before hz : Rat} (now : Rat) (hlast : s.lastT = some before)
    (hclock : s.clockHz = some hz) :
    s.schedTick now =
      { s with lastT := some now, burst := if s.status = .running then burstLength hz (now - before) else 0 } := by
  have hrate : s.schedRate = (hz, 0) := by rw [State.schedRate, hclock]
  simp only [State.schedTick, hlast, hrate, Nat.add_zero]

/-- Settles O57: by whether the baseline is set. -/
theorem schedTickIssuesBurst : Obligations.SchedTickIssuesBurst := by
  intro s now rest ha hidle
  have hstep := step_other s (turn_of_waited ha rfl (.inl hidle))
  refine ⟨fun hlast => ?_, fun before hz hlast hclock => ?_⟩
  · rw [hstep, State.external, schedTick_first (s := { s with agenda := rest }) now hlast, ← hidle]
  · rw [State.external, schedTick_later (s := { s with agenda := rest }) now hlast hclock] at hstep
    refine ⟨_, hstep, fun hs => ?_, fun hs => if_neg hs, rfl⟩
    rw [← burstLength_eq_max]
    exact congrArg _ (if_pos hs)

/-! ### What a host operation writes or refuses -/

/-- A turn of an agent other than the CPU, with the state it leaves and what it emits. -/
theorem step_outputs_other {s t : State} {e : Event} {rest : List Event} {out : List Output} (hturn : s.turn = .other e rest)
    (hstate : ({ s with agenda := rest } : State).external e = t) (hout : s.externalOutputs e = out) :
    step s = .next t ∧ outputs s = out :=
  ⟨hstate ▸ step_other s hturn, hout ▸ outputs_other hturn⟩

theorem Rate.accepted_of_pos {hz : Rat} (h : 0 < hz) : (Rate.finite hz).accepted = true := decide_eq_true h

theorem Rate.refused_of_nonpos {hz : Rat} (h : hz ≤ 0) : ¬(Rate.finite hz).accepted = true := by
  simpa [Rate.accepted] using h

theorem State.setKey_of_lt (s : State) {k : Nat} (down : Bool) (h : k < 16) :
    s.setKey k down = { s with key := s.key.set k down } := by
  have hkey : s.key.setIfInBounds k down = s.key.set k down :=
    Vector.ext fun j hj => by rw [Vector.getElem_setIfInBounds, Vector.getElem_set]
  rw [State.setKey, hkey]

theorem State.setKey_of_ge (s : State) {k : Nat} (down : Bool) (h : 16 ≤ k) : s.setKey k down = s := by
  rw [State.setKey, Vector.setIfInBounds_eq_of_size_le h]

/-- `Press` and `Release` alike: the event `e` that sets key `k` to `down` (60_exceptions.md R220). -/
theorem keyEvent_writes_or_refuses {s : State} {e : Event} {rest : List Event} {k : Nat} {down : Bool}
    (hturn : s.turn = .other e rest) (hsets : ∀ u : State, u.external e = u.setKey k down)
    (hout : s.externalOutputs e = if k < 16 then [] else [.rejected e]) :
    ((h : k < 16) → step s = .next { s with agenda := rest, key := s.key.set k down } ∧ outputs s = []) ∧
      (16 ≤ k → step s = .next { s with agenda := rest } ∧ outputs s = [.rejected e]) :=
  ⟨fun h => step_outputs_other hturn ((hsets _).trans (State.setKey_of_lt _ down h)) (hout.trans (if_pos h)),
    fun h => step_outputs_other hturn ((hsets _).trans (State.setKey_of_ge _ down h))
      (hout.trans (if_neg (Nat.not_lt.mpr h)))⟩

theorem fontsFit_iff (std ext : List Byte) : fontsFit std ext = true ↔ std.length = 80 ∧ ext.length = 320 := by
  rw [fontsFit, Bool.and_eq_true, decide_eq_true_eq, decide_eq_true_eq]

/-- Settles O58: an operation writes under the same condition under which nothing is reported. -/
theorem hostWritesOrRefuses : Obligations.HostWritesOrRefuses := by
  intro s rest
  refine ⟨fun r ha hidle => ?_, fun k ha => ?_, fun k ha => ?_, fun std ext ha => ?_, fun e ha => ?_⟩
  · have hturn := turn_of_waited ha rfl hidle
    refine ⟨?_, ?_, ?_⟩
    · rintro hz rfl h
      exact step_outputs_other hturn (State.setClockHz_of_pos _ h) (if_pos (Rate.accepted_of_pos h))
    · rintro hz rfl h
      exact step_outputs_other hturn (State.setClockHz_of_nonpos _ h) (if_neg (Rate.refused_of_nonpos h))
    · rintro rfl
      exact step_outputs_other hturn rfl rfl
  · exact keyEvent_writes_or_refuses (turn_of_agenda ha nofun rfl) (fun _ => rfl) rfl
  · exact keyEvent_writes_or_refuses (turn_of_agenda ha nofun rfl) (fun _ => rfl) rfl
  · have hturn := turn_of_agenda ha nofun rfl
    rw [← fontsFit_iff]
    exact ⟨fun h => step_outputs_other hturn (if_pos h) (if_pos h),
      fun h => step_outputs_other hturn (if_neg h) (if_neg h)⟩
  · have hturn := turn_of_agenda ha nofun rfl
    refine ⟨fun h => ?_, fun h => step_outputs_other hturn (if_pos h) (if_pos h)⟩
    have hnot := Bool.eq_false_iff.mp h
    exact step_outputs_other hturn (if_neg hnot) (if_neg hnot)

end Sys2Proof.Machine

/-! ## Display control and the decode miss (41_system_display.md) -/

namespace Sys2Proof.Machine

/-! ### The decode miss (R103) -/

theorem misses_of_decode_error {s : State} {e : DecodeError} (hpc : s.pc.toNat ≤ 4094)
    (hd : decodeWord s.config.modeOps s.fetchWord = .error e) : s.misses = true := by
  have hfetch : s.fetchOutOfRange = false := decide_eq_false (by rw [memSize_eq]; omega)
  simp only [State.misses, hfetch, hd, Bool.not_false, Bool.and_self]

/-- Settles O8: the cycle of a miss is its end alone, and it keeps `STATUS`, so that what it emits is the report and the
strobe. -/
theorem decodeMissIsReportedNoOperation : Obligations.DecodeMissIsReportedNoOperation := by
  intro s rest e hrun hpc hd
  have hcycle : cycle (s.atTurn rest) = .next ({ s.atTurn rest with ir := s.fetchWord } : State).endCycle :=
    cycle_miss (s.atTurn rest) (Nat.lt_succ_of_le hpc) hd
  have hmiss : (s.atTurn rest).misses = true := misses_of_decode_error hpc hd
  refine ⟨_, (step_cpu s hrun).trans hcycle, State.endCycle_endedAt _, fun _ => rfl, rfl, ?_⟩
  rw [outputs_cpu hrun, cycleOutputs_of_running hcycle hrun.2, if_pos hmiss]
  rfl

/-! ### `CLS` (R100) -/

theorem pixelLit_nil (x y : Nat) : pixelLit [] x y = false := by
  rw [pixelLit, Store.read_nil, BitVec.getLsbD_zero]

theorem exec_cls (s : State) : exec .cls s = .next ({ s with vram := [] } : State).endCycle := exec_eq_endWith .cls s

/-- Settles O43: the framebuffer left lists no byte, so that no pixel of either mode is lit. -/
theorem clearScreen : Obligations.ClearScreen := fun s =>
  ⟨_, exec_cls s, Store.read_nil, fun _ _ => pixelLit_nil _ _, fun _ => rfl, rfl, State.endCycle_endedAt _⟩

/-! ### `LOW` and `HIGH` (R101, R102) -/

/-- An instruction that sets the mode to `e` and completes, which both mode switches do (45_draw.md R172). -/
theorem exec_switches_mode {i : Instr} {s : State} {e : Bool} (h : exec i s = .next (s.setMode e).endCycle) :
    ∃ t, exec i s = .next t ∧ t = { s with ext := e, pc := t.pc, audio := t.audio } ∧ KeepsMemory s t ∧
      t.EndedAt (s.pc.toNat + 2) :=
  ⟨_, h, rfl, fun _ => rfl, (s.setMode e).endCycle_endedAt⟩

/-- Settles O44: `LOW` sets the mode to false, `HIGH` to true. -/
theorem modeSwitches : Obligations.ModeSwitches := fun s =>
  ⟨exec_switches_mode (exec_eq_endWith .low s), exec_switches_mode (exec_eq_endWith .high s)⟩

end Sys2Proof.Machine

/-! ## Control transfer (42_control_transfer.md) -/

namespace Sys2Proof.Machine

/-! ### Jumps (R111, R117) -/

/-- An address that stands in the instruction is in range, so that a write of it to `PC` stays (10_state.md R17). -/
theorem State.PcWritten.at_addr {t : State} {nnn : Addr} (h : t.PcWritten nnn.toNat) : t.pc.toNat = nnn.toNat :=
  h.trans (if_pos (Nat.le_of_lt_succ nnn.isLt))

/-- An instruction that does nothing but complete at a target: the jumps, and through `exec_skips` the skips. -/
theorem exec_jumps {i : Instr} {s : State} {n : Nat} (h : exec i s = jumpTo n s) :
    ∃ t, exec i s = .next t ∧ OnlyCounter s t ∧ t.EndedAt n :=
  ⟨_, h.trans (jumpTo_def n s), ⟨rfl, fun _ => rfl⟩, s.jump_endedAt n⟩

/-- Settles O29: both do nothing but complete at their target, and that of `JP addr` is in range. -/
theorem jumpsReachTarget : Obligations.JumpsReachTarget := by
  intro nnn s
  obtain ⟨t, ht, hkeep, hpc, -⟩ := exec_jumps (i := .jp nnn) (s := s) rfl
  obtain ⟨u, hu, hukeep, hupc, -⟩ := exec_jumps (i := .jpV0 nnn) (s := s) rfl
  exact ⟨⟨t, ht, hpc.at_addr, hkeep⟩, u, hu, hukeep, hupc⟩

/-! ### Skips (R113 to R116, R118) -/

/-- An instruction that skips on a condition, with the condition as the statement `p`. -/
theorem exec_skips {i : Instr} {s : State} {c : Bool} {p : Prop} [Decidable p] (h : exec i s = skipIf c s)
    (hc : c = true ↔ p) :
    ∃ t, exec i s = .next t ∧ OnlyCounter s t ∧ t.EndedAt (if p then s.pc.toNat + 4 else s.pc.toNat + 2) := by
  have htarget := h.trans (skipIf_def c s)
  simp only [hc] at htarget
  exact exec_jumps htarget

/-- Settles O30: the Boolean each compares with is true exactly when its condition holds. -/
theorem comparingSkips : Obligations.ComparingSkips := fun _ _ _ _ _ =>
  ⟨exec_skips rfl beq_iff_eq, exec_skips rfl bne_iff_ne, exec_skips rfl beq_iff_eq, exec_skips rfl bne_iff_ne⟩

/-! ### `CALL` (R112) -/

/-- The state after `CALL` has pushed its own address. -/
def State.pushed (s : State) : State :=
  { s with stack := Store.write s.stack s.sp s.pc, sp := s.sp + 1 }

theorem exec_call_of_lt (nnn : Addr) {s : State} (h : s.sp < s.config.stackDepth) :
    exec (.call nnn) s = jumpTo nnn.toNat s.pushed := by
  rw [exec_eq_endWith, Instr.effect, s.push_of_lt s.pc h]
  rfl

theorem raises_call_of_ge (nnn : Addr) {s : State} (h : s.config.stackDepth ≤ s.sp) :
    Raises (.call nnn) s (.stackOverflow s.pc s.ir) := by
  rw [Raises, exec_eq_endWith, Instr.effect, s.push_of_ge s.pc h]
  rfl

/-- Settles O31: by whether a slot is free. -/
theorem callPushesOwnAddress : Obligations.CallPushesOwnAddress := fun nnn s =>
  ⟨fun hfree => ⟨_, exec_call_of_lt nnn hfree, Store.read_write_same _ _ _, fun _ hne => Store.read_write_ne _ _ hne, rfl,
      (s.pushed.setPc_written _).at_addr, fun _ => rfl, rfl, s.pushed.jump_endedAt _⟩,
    raises_call_of_ge nnn⟩

/-! ### `RET` (R110) -/

/-- The state in which `RET` has popped an entry into `PC`, before the auto-increment. -/
def State.returned (s : State) : State :=
  ({ s with sp := s.sp - 1 } : State).setPc (Store.read s.stack (s.sp - 1)).toNat

theorem State.returned_pc {s : State} (h : (Store.read s.stack (s.sp - 1)).toNat < 4096) :
    s.returned.pc.toNat = (Store.read s.stack (s.sp - 1)).toNat := pcTarget_of_lt h

/-- `RET` writes `PC` twice, the popped entry and then 2 past it, and the first write keeps an entry that is in range. -/
theorem exec_ret_of_pos {s : State} (hsp : 0 < s.sp) (hentry : (Store.read s.stack (s.sp - 1)).toNat < 4096) :
    ∃ t, exec .ret s = .next t ∧ t.sp = s.sp - 1 ∧ KeepsMemory s t ∧
      t = { s with sp := t.sp, pc := t.pc, audio := t.audio } ∧
      t.EndedAt ((Store.read s.stack (s.sp - 1)).toNat + 2) := by
  have hret : exec .ret s = advance s.returned := by
    rw [exec_eq_endWith, Instr.effect, s.pop_of_pos hsp]
    rfl
  refine ⟨_, hret, rfl, fun _ => rfl, rfl, ?_⟩
  rw [← State.returned_pc hentry]
  exact s.returned.endCycle_endedAt

theorem raises_ret_of_zero {s : State} (h : s.sp = 0) : Raises .ret s (.stackUnderflow s.pc s.ir) := by
  rw [Raises, exec_eq_endWith, Instr.effect, s.pop_of_zero h]
  rfl

/-- Settles O32: the invariant keeps every entry in range. -/
theorem returnPopsAndAdvances : Obligations.ReturnPopsAndAdvances := fun _ hs =>
  ⟨fun hsp => exec_ret_of_pos hsp (hs.entries _), raises_ret_of_zero⟩

/-- Settles O33: the entry the `RET` pops is the one the `CALL` pushed, its own address, which the invariant keeps in range. -/
theorem returnResumesAfterCall : Obligations.ReturnResumesAfterCall := by
  intro nnn s t m hs hfree hcall hstack hsp
  obtain rfl : (s.pushed.setPc nnn.toNat).audioStep = t :=
    Host.Outcome.next.inj ((exec_call_of_lt nnn hfree).symm.trans hcall)
  have hdepth : m.sp = s.sp + 1 := hsp
  have hentry : Store.read m.stack (m.sp - 1) = s.pc := by
    rw [hdepth, hstack]
    exact Store.read_write_same _ _ _
  obtain ⟨u, hu, husp, -, -, hended⟩ := exec_ret_of_pos (s := m) (by omega) (hentry ▸ hs.counter)
  rw [hdepth] at husp
  rw [hentry] at hended
  exact ⟨u, hu, husp, hended⟩

end Sys2Proof.Machine

/-! ## Load, arithmetic, logic, shift and random (43_alu.md) -/

namespace Sys2Proof.Machine

/-! ### Writing a register, and writing a register and then the flag -/

/-- An instruction that writes one register and completes. The register is written in `u`, which is `s` but for `RND`, whose
draw is spent first. -/
theorem exec_sets_reg {i : Instr} {s u : State} {x : Reg} {b : Byte} (h : exec i s = advance (u.setReg x b)) :
    ∃ t, exec i s = .next t ∧ t.reg x = b ∧
      KeepsRegs u t [x] ∧ OnlyRegisters u t ∧ t.EndedAt (u.pc.toNat + 2) :=
  ⟨_, h, u.reg_setReg_same x b, fun _ hr => u.reg_setReg_ne b (List.ne_of_not_mem_cons hr), ⟨rfl, fun _ => rfl⟩,
    (u.setReg x b).endCycle_endedAt⟩

theorem keepsRegs_setRegAndFlag (s : State) (x : Reg) (b f : Byte) : KeepsRegs s (s.setRegAndFlag x b f) [x, vf] :=
  fun _ hr => setRegAndFlag_outside b f (by simpa using hr)

/-- An instruction that writes its result, then its flag, and completes: the result stays unless `x = F` (R143). -/
theorem exec_sets_regAndFlag {i : Instr} {s : State} {x : Reg} {b f : Byte}
    (h : exec i s = advance (s.setRegAndFlag x b f)) :
    ∃ t, exec i s = .next t ∧ (x ≠ vf → t.reg x = b) ∧ t.reg vf = f ∧
      KeepsRegs s t [x, vf] ∧ OnlyRegisters s t ∧ t.EndedAt (s.pc.toNat + 2) := by
  refine ⟨_, h, fun hx => ?_, s.reg_setRegAndFlag_vf x b f, keepsRegs_setRegAndFlag s x b f, ⟨rfl, fun _ => rfl⟩,
    (s.setRegAndFlag x b f).endCycle_endedAt⟩
  rw [State.reg_endCycle, s.reg_setRegAndFlag, if_neg hx, if_pos rfl]

/-! ### Results and flags as numbers (R142) -/

theorem toNat_sub_emod (a b : Byte) : ((a - b).toNat : Int) = (a.toNat - b.toNat : Int) % 256 := by
  have hb := b.isLt
  rw [BitVec.toNat_sub]
  omega

theorem toNat_shiftRight_one (a : Byte) : (a >>> 1).toNat = a.toNat / 2 := by
  rw [BitVec.toNat_ushiftRight, Nat.shiftRight_one]

theorem toNat_shiftLeft_one (a : Byte) : (a <<< 1).toNat = a.toNat * 2 % 256 := by
  rw [BitVec.toNat_shiftLeft, Nat.shiftLeft_eq]

theorem flagByte_toNat (p : Prop) [Decidable p] : (flagByte (decide p)).toNat = if p then 1 else 0 := by
  by_cases h : p <;> simp [flagByte, h]

theorem carryFlag_toNat (a b : Byte) : (carryFlag a b).toNat = if a.toNat + b.toNat > 255 then 1 else 0 :=
  flagByte_toNat _

theorem greaterFlag_toNat (a b : Byte) : (greaterFlag a b).toNat = if a.toNat > b.toNat then 1 else 0 :=
  flagByte_toNat _

theorem lowBitFlag_toNat (a : Byte) : (lowBitFlag a).toNat = a.toNat % 2 := by
  rw [lowBitFlag, BitVec.toNat_and]
  exact Nat.and_one_is_mod _

/-- The mask `0x80` tests bit 7, which is set from 128 on. -/
theorem and_0x80_ne_zero_iff (a : Byte) : a &&& 0x80#8 ≠ 0#8 ↔ 128 ≤ a.toNat := by
  have hmask : a &&& 0x80#8 = if a.getLsbD 7 then 0x80#8 else 0#8 := BitVec.and_twoPow a 7
  have hbit : a.getLsbD 7 = decide (128 ≤ a.toNat) := a.msb_eq_getLsbD_last.symm.trans a.msb_eq_decide
  rw [hmask, hbit]
  by_cases h : 128 ≤ a.toNat <;> simp [h]

theorem highBitFlag_toNat (a : Byte) : (highBitFlag a).toNat = a.toNat / 128 := by
  have ha := a.isLt
  simp only [highBitFlag, flagByte_toNat, and_0x80_ne_zero_iff]
  split <;> omega

/-! ### Immediate forms (R130, R131) and bitwise forms (R132 to R135) -/

/-- Settles O23: both write one register, `LD` the byte and `ADD` the sum. -/
theorem immediateLoadAndAdd : Obligations.ImmediateLoadAndAdd := by
  intro x kk s
  obtain ⟨t, ht, hx, hregs, honly, hpc, -⟩ := exec_sets_reg (i := .ldImm x kk) (s := s) rfl
  obtain ⟨u, hu, hux, huregs, huonly, hupc, -⟩ := exec_sets_reg (i := .addImm x kk) (s := s) rfl
  exact ⟨⟨t, ht, hx, hregs, honly, hpc⟩,
    u, hu, (congrArg BitVec.toNat hux).trans (BitVec.toNat_add _ _), huregs, huonly, hupc⟩

/-- An instruction that writes one register and completes, with the register given bit by bit. -/
theorem exec_sets_bits {i : Instr} {s : State} {x : Reg} {b : Byte} {bits : Nat → Bool}
    (h : exec i s = advance (s.setReg x b)) (hbits : ∀ k, b.getLsbD k = bits k) :
    ∃ t, exec i s = .next t ∧ (∀ k, (t.reg x).getLsbD k = bits k) ∧
      KeepsRegs s t [x] ∧ OnlyRegisters s t ∧ t.EndedAt (s.pc.toNat + 2) := by
  obtain ⟨t, ht, rfl, hrest⟩ := exec_sets_reg h
  exact ⟨t, ht, hbits, hrest⟩

/-- Settles O24: all four write one register, and each bit of an operation is the operation on the bits. -/
theorem copyAndBitwise : Obligations.CopyAndBitwise := fun _ _ _ =>
  ⟨exec_sets_reg rfl, exec_sets_bits rfl fun _ => BitVec.getLsbD_or, exec_sets_bits rfl fun _ => BitVec.getLsbD_and,
    exec_sets_bits rfl fun _ => BitVec.getLsbD_xor⟩

/-! ### Flag-writing forms (R136 to R140) -/

/-- Settles O25: the sum is written first and the carry last. -/
theorem addWithCarryOut : Obligations.AddWithCarryOut := by
  intro x y s
  obtain ⟨t, ht, hx, hf, hrest⟩ := exec_sets_regAndFlag (i := .addReg x y) (s := s) rfl
  exact ⟨t, ht, fun hne => (congrArg BitVec.toNat (hx hne)).trans (BitVec.toNat_add _ _),
    (congrArg BitVec.toNat hf).trans (carryFlag_toNat _ _), hrest⟩

/-- `SUB` and `SUBN` alike: an instruction that leaves `a - b` in its register and the strict comparison in `VF`. -/
theorem exec_subtracts {i : Instr} {s : State} {x : Reg} {a b : Byte}
    (h : exec i s = advance (s.setRegAndFlag x (a - b) (greaterFlag a b))) :
    ∃ t, exec i s = .next t ∧ (x ≠ vf → ((t.reg x).toNat : Int) = (a.toNat - b.toNat : Int) % 256) ∧
      (t.reg vf).toNat = (if a.toNat > b.toNat then 1 else 0) ∧
      KeepsRegs s t [x, vf] ∧ OnlyRegisters s t ∧ t.EndedAt (s.pc.toNat + 2) := by
  obtain ⟨t, ht, hx, hf, hrest⟩ := exec_sets_regAndFlag h
  refine ⟨t, ht, fun hne => ?_, (congrArg BitVec.toNat hf).trans (greaterFlag_toNat a b), hrest⟩
  rw [hx hne]
  exact toNat_sub_emod a b

/-- Settles O26: `SUBN` is `SUB` with its operands exchanged. -/
theorem subtractWithGreaterFlag : Obligations.SubtractWithGreaterFlag := fun _ _ _ =>
  ⟨exec_subtracts rfl, exec_subtracts rfl⟩

/-- Settles O27: the shifted value is written first and the bit shifted out last. -/
theorem shiftsByOne : Obligations.ShiftsByOne := by
  intro x y s
  obtain ⟨t, ht, hx, hf, hrest⟩ := exec_sets_regAndFlag (i := .shr x y) (s := s) rfl
  obtain ⟨u, hu, hux, huf, hurest⟩ := exec_sets_regAndFlag (i := .shl x y) (s := s) rfl
  exact ⟨⟨t, ht, fun hne => (congrArg BitVec.toNat (hx hne)).trans (toNat_shiftRight_one _),
      (congrArg BitVec.toNat hf).trans (lowBitFlag_toNat _), hrest⟩,
    u, hu, fun hne => (congrArg BitVec.toNat (hux hne)).trans (toNat_shiftLeft_one _),
      (congrArg BitVec.toNat huf).trans (highBitFlag_toNat _), hurest⟩

/-! ### `RND` (R141) -/

theorem and_and_not_self (r kk : Byte) : r &&& kk &&& ~~~kk = 0#8 := by
  rw [BitVec.and_assoc, BitVec.and_not_self]
  exact BitVec.and_zero

/-- Settles O28: the register is written in the state in which the draw is spent. -/
theorem randomIsMaskedFreshByte : Obligations.RandomIsMaskedFreshByte := by
  intro x kk s
  obtain ⟨t, ht, hx, hregs, ⟨honly, hmem⟩, hended⟩ := exec_sets_reg (i := .rnd x kk) (u := s.rand8.2) rfl
  exact ⟨t, ht, hx, hx ▸ and_and_not_self _ kk, hregs, hmem, honly, hended⟩

end Sys2Proof.Machine

/-! ## Address register and memory (44_index_memory.md) -/

namespace Sys2Proof.Machine

/-- An instruction whose handler faults raises that fault. -/
theorem raises_of_effect_error {i : Instr} {s : State} {f : CycleFault} (h : i.effect s = .error f) : Raises i s f := by
  rw [Raises, exec_eq_endWith, h]
  rfl

/-! ### Writing `I` (R150 to R152) -/

/-- An instruction that writes `I` with a value in range and completes. -/
theorem exec_sets_index {i : Instr} {s : State} {v : Nat} (h : exec i s = advanceOr s (s.setI v)) (hv : v ≤ 4095) :
    ∃ t, exec i s = .next t ∧ t.i.toNat = v ∧ KeepsMemory s t ∧
      t = { s with i := t.i, pc := t.pc, audio := t.audio } ∧ t.EndedAt (s.pc.toNat + 2) := by
  rw [s.setI_of_lt (Nat.lt_succ_of_le hv)] at h
  exact ⟨_, h, Nat.mod_eq_of_lt (by omega), fun _ => rfl, rfl, State.endCycle_endedAt _⟩

/-- Settles O35: an address that stands in the instruction is in range. -/
theorem loadIndex : Obligations.LoadIndex := by
  intro nnn s
  obtain ⟨t, ht, hi, hmem, hkeep, hpc, -⟩ :=
    exec_sets_index (i := .ldI nnn) (s := s) rfl (Nat.le_of_lt_succ nnn.isLt)
  exact ⟨t, ht, hi, hmem, hkeep, hpc⟩

/-- Settles O36: by whether the sum, taken over unbounded integers, is in range. -/
theorem addToIndex : Obligations.AddToIndex := fun _ s =>
  ⟨exec_sets_index rfl, fun hout => raises_of_effect_error (s.setI_of_ge hout)⟩

/-- Settles O37: five times a byte is at most 1275. -/
theorem pointAtGlyph : Obligations.PointAtGlyph := by
  intro x s
  have hbyte := (s.reg x).isLt
  exact exec_sets_index rfl (by omega)

/-! ### Storing a block at `I` (R153, R154) -/

theorem State.byteWithStored_at {s : State} {block : List Byte} {j : Nat} (hj : j < block.length) :
    s.byteWithStored block (s.dataAddr 0 + j) = block[j] := by
  show s.byteWithStored block (s.i.toNat + j) = block[j]
  rw [State.byteWithStored, if_pos (by omega), Nat.add_sub_cancel_left, List.getD_eq_getElem _ _ hj]

theorem State.byteWithStored_outside {s : State} {block : List Byte} {a : Nat}
    (ha : a < s.dataAddr 0 ∨ s.dataAddr 0 + block.length ≤ a) : s.byteWithStored block a = s.byte a :=
  if_neg fun ⟨hle, hlt⟩ => ha.elim hle.not_gt hlt.not_ge

/-- An instruction that stores a block at `I`, inside memory, and completes. -/
theorem exec_stores {i : Instr} {s : State} {block : List Byte}
    (h : exec i s = advanceOr s (s.writeBlock (s.dataAddr 0) block)) (hin : s.dataAddr 0 + block.length ≤ 4096) :
    ∃ t, exec i s = .next t ∧ (∀ j, (hj : j < block.length) → t.byte (s.dataAddr 0 + j) = block[j]) ∧
      (∀ a, a < s.dataAddr 0 ∨ s.dataAddr 0 + block.length ≤ a → t.byte a = s.byte a) ∧
      t = { s with mem := t.mem, pc := t.pc, audio := t.audio } ∧ t.EndedAt (s.pc.toNat + 2) := by
  rw [s.writeBlock_in hin] at h
  have hbyte (a : Nat) := read_writeList_getD block s.mem (s.dataAddr 0) a
  exact ⟨_, h, fun j hj => (hbyte _).trans (State.byteWithStored_at hj),
    fun a ha => (hbyte a).trans (State.byteWithStored_outside ha), rfl, State.endCycle_endedAt _⟩

/-- An instruction whose handler stores a block that reaches past the end of memory. -/
theorem raises_of_writeBlock_out {i : Instr} {s : State} {block : List Byte}
    (heffect : i.effect s = s.writeBlock (s.dataAddr 0) block) (hlen : 0 < block.length)
    (hout : 4096 < s.dataAddr 0 + block.length) : Raises i s (.memAccessOutOfRange 4096 s.pc s.ir) :=
  raises_of_effect_error (heffect.trans (s.writeBlock_out hlen hout))

theorem bcdDigits_toNat (b : Byte) :
    (bcdDigits b)[0].toNat = b.toNat / 100 ∧ (bcdDigits b)[1].toNat = b.toNat / 10 % 10 ∧
      (bcdDigits b)[2].toNat = b.toNat % 10 := by
  have hb := b.isLt
  simp only [bcdDigits, List.getElem_cons_zero, List.getElem_cons_succ, BitVec.toNat_ofNat]
  omega

/-- Settles O38: by whether the block of three digits lies in memory. -/
theorem storeDecimalDigits : Obligations.StoreDecimalDigits := by
  intro x s
  have hlen := bcdDigits_length (s.reg x)
  obtain ⟨hhundreds, htens, hones⟩ := bcdDigits_toNat (s.reg x)
  refine ⟨fun hin => ?_, fun hout => raises_of_writeBlock_out rfl (by simp) (by omega)⟩
  obtain ⟨t, ht, hstored, houtside, hrest⟩ := exec_stores (i := .ldB x) (s := s) rfl (by omega)
  refine ⟨t, ht, ?_, ?_, ?_, fun a ha => houtside a (by omega), hrest⟩
  · exact (congrArg BitVec.toNat (hstored 0 (by simp))).trans hhundreds
  · exact (congrArg BitVec.toNat (hstored 1 (by simp))).trans htens
  · exact (congrArg BitVec.toNat (hstored 2 (by simp))).trans hones

/-- Settles O39: by whether the block of `x + 1` registers lies in memory. -/
theorem storeRegisters : Obligations.StoreRegisters := by
  intro x s
  have hlen := s.regsUpTo_length x
  refine ⟨fun hin => ?_, fun hout => raises_of_writeBlock_out rfl (by simp) (by omega)⟩
  obtain ⟨t, ht, hstored, houtside, hrest⟩ := exec_stores (i := .ldStore x) (s := s) rfl (by omega)
  refine ⟨t, ht, fun j hj => ?_, fun a ha => houtside a (by omega), hrest⟩
  have hlt : j.val < (s.regsUpTo x).length := hlen.symm ▸ Nat.lt_succ_of_le hj
  exact (hstored j.val hlt).trans (s.regsUpTo_getElem x j.val hlt)

/-! ### Loading registers from `I` (R155) -/

theorem State.reg_loaded_readList (s : State) (a : Nat) (x j : Reg) :
    (s.loaded (Store.readList (w := 8) s.mem a (x.val + 1))).reg j = if j ≤ x then s.byte (a + j.val) else s.reg j := by
  split
  · next hj =>
    have hlt : j.val < x.val + 1 := Nat.lt_succ_of_le hj
    exact (loadRegs_getElem _ s.v 0 j.val j.isLt).trans
      ((dif_pos (by simpa using hlt)).trans (Store.readList_getElem _ _ _ _ (by simpa using hlt)))
  · next hj => exact loaded_outside (Store.readList_length _ _ _) (decide_eq_false hj)

theorem exec_ldLoad_of_in {x : Reg} {s : State} (hin : s.dataAddr 0 + x.val ≤ 4095) :
    exec (.ldLoad x) s =
      .next (s.loaded (Store.readList (w := 8) s.mem (s.dataAddr 0) (x.val + 1))).endCycle := by
  rw [exec_eq_endWith, Instr.effect, s.readBlock_in (Nat.succ_le_succ hin)]
  rfl

theorem raises_ldLoad_of_out {x : Reg} {s : State} (hout : 4095 < s.dataAddr 0 + x.val) :
    Raises (.ldLoad x) s (.memAccessOutOfRange 4096 s.pc s.ir) := by
  refine raises_of_effect_error ?_
  rw [Instr.effect, s.readBlock_out x.val.succ_pos (Nat.succ_lt_succ hout)]
  rfl

/-- Settles O40: by whether the block read lies in memory. -/
theorem loadRegisters : Obligations.LoadRegisters := fun x s =>
  ⟨fun hin => ⟨_, exec_ldLoad_of_in hin, s.reg_loaded_readList (s.dataAddr 0) x, ⟨rfl, fun _ => rfl⟩,
    State.endCycle_endedAt _⟩, raises_ldLoad_of_out⟩

/-- Settles O41: the load reads the block that the store wrote, since the store keeps `I`. -/
theorem storeThenLoadRestoresRegisters : Obligations.StoreThenLoadRestoresRegisters := by
  intro x s t m hin hstore hi hmem
  obtain ⟨t', hstore', hstored, -, hkeep, -⟩ := (storeRegisters x s).1 hin
  obtain rfl : t = t' := Host.Outcome.next.inj (hstore.symm.trans hstore')
  have hindex : m.i = s.i := by rw [hi, hkeep]
  have haddr : m.dataAddr 0 = s.dataAddr 0 := congrArg BitVec.toNat hindex
  obtain ⟨u, hload, hregs, -⟩ := (loadRegisters x m).1 (haddr ▸ hin)
  refine ⟨u, hload, fun j => (hregs j).trans (ite_congr rfl (fun hj => ?_) fun _ => rfl)⟩
  rw [haddr]
  exact (hmem _ (Nat.le_add_right _ _) (Nat.add_le_add_left hj _)).trans (hstored j hj)

end Sys2Proof.Machine

/-! ## Drawing (45_draw.md) -/

namespace Sys2Proof.Machine

/-! ### A list of pixels toggled one after the other -/

/-- Toggle the pixels of a list, with the collision so far going in and out: what `DRW` comes down to. That a row and a sprite
are drawn so is `drawRow_eq_drawPixels` and `State.drawSprite_eq_drawPixels`. -/
def drawPixels (acc : Store 8 × Bool) (ps : List (Nat × Nat)) : Store 8 × Bool :=
  ps.foldl (fun acc p => pixXor1 acc p.1 p.2) acc

theorem drawPixels_cons (acc : Store 8 × Bool) (p : Nat × Nat) (ps : List (Nat × Nat)) :
    drawPixels acc (p :: ps) = drawPixels (pixXor1 acc p.1 p.2) ps := rfl

/-- Pixels that differ are toggled once each: exactly they change. -/
theorem pixelLit_drawPixels {ps : List (Nat × Nat)} (hnodup : ps.Nodup) (hps : ∀ p ∈ ps, p.1 < 128) {px py : Nat}
    (hpx : px < 128) (acc : Store 8 × Bool) :
    pixelLit (drawPixels acc ps).1 px py = (pixelLit acc.1 px py ^^ decide ((px, py) ∈ ps)) := by
  induction ps generalizing acc with
  | nil => simp [drawPixels]
  | cons p ps ih =>
    obtain ⟨hp, hnodup⟩ := List.nodup_cons.mp hnodup
    obtain ⟨hp128, hps⟩ := List.forall_mem_cons.mp hps
    have htoggle := pixelLit_toggle acc.1 (y := p.2) (y' := py) hp128 hpx
    rw [drawPixels_cons, ih hnodup hps, pixXor1, htoggle, Bool.xor_assoc]
    congr 1
    by_cases hfirst : (px, py) = p
    · subst hfirst
      simp [hp]
    · have hne : ¬(px = p.1 ∧ py = p.2) := fun h => hfirst (Prod.ext h.1 h.2)
      simp [hne, hfirst]

/-- Pixels that differ are met as they were at first: the collision is one with the framebuffer before. -/
theorem drawPixels_collision {ps : List (Nat × Nat)} (hnodup : ps.Nodup) (hps : ∀ p ∈ ps, p.1 < 128)
    (acc : Store 8 × Bool) :
    (drawPixels acc ps).2 = true ↔ acc.2 = true ∨ ∃ p ∈ ps, pixelLit acc.1 p.1 p.2 = true := by
  induction ps generalizing acc with
  | nil => simp [drawPixels]
  | cons p ps ih =>
    obtain ⟨hp, hnodup⟩ := List.nodup_cons.mp hnodup
    obtain ⟨hp128, hps⟩ := List.forall_mem_cons.mp hps
    have hlit : ∀ q ∈ ps, pixelLit (pixXor1 acc p.1 p.2).1 q.1 q.2 = pixelLit acc.1 q.1 q.2 := by
      intro q hq
      have hne : ¬(q.1 = p.1 ∧ q.2 = p.2) := fun h => hp (Prod.ext h.1 h.2 ▸ hq)
      rw [pixXor1, pixelLit_toggle acc.1 hp128 (hps q hq), decide_eq_false hne, Bool.xor_false]
    rw [drawPixels_cons, ih hnodup hps, List.exists_mem_cons_iff, ← or_assoc]
    refine or_congr (by rw [pixXor1, Bool.or_eq_true]) (exists_congr fun q => and_congr_right fun hq => ?_)
    rw [hlit q hq]

/-! ### The pixels of a row and of a sprite -/

/-- The pixels on which the lit bits of a row fall, from left to right (45_draw.md R173). -/
def rowPixels (ext : Bool) (x y bits nbits : Nat) : List (Nat × Nat) :=
  ((List.range nbits).filter fun i => bits.testBit (nbits - 1 - i)).map fun i =>
    ((x % activeWidth ext + i) % activeWidth ext, y % activeHeight ext)

/-- The pixels on which the lit bits of a sprite fall, row by row (45_draw.md R175). -/
def State.spritePixels (s : State) (x y : Nat) (n : Nibble) : List (Nat × Nat) :=
  (List.range (spriteShape s.ext n).1).flatMap fun r =>
    rowPixels s.ext x (y + r) (s.spriteRow s.ext n r).1 (s.spriteRow s.ext n r).2

theorem drawRow_eq_drawPixels (ext : Bool) (x y bits nbits : Nat) (acc : Store 8 × Bool) :
    drawRow ext x y bits nbits acc = drawPixels acc (rowPixels ext x y bits nbits) := by
  rw [drawPixels, rowPixels, List.foldl_map, List.foldl_filter]
  rfl

theorem State.drawSprite_eq_drawPixels (s : State) (x y : Nat) (n : Nibble) :
    s.drawSprite x y n = drawPixels (s.vram, false) (s.spritePixels x y n) := by
  simp only [State.drawSprite, State.spritePixels, drawRow_eq_drawPixels, drawPixels, List.foldl_flatMap]

theorem mem_rowPixels {ext : Bool} {x y bits nbits px py : Nat} :
    (px, py) ∈ rowPixels ext x y bits nbits ↔
      ∃ i, i < nbits ∧ bits.testBit (nbits - 1 - i) = true ∧
        px = (x + i) % activeWidth ext ∧ py = y % activeHeight ext := by
  simp only [rowPixels, List.mem_map, List.mem_filter, List.mem_range, Prod.mk.injEq, Nat.mod_add_mod, and_assoc,
    eq_comm]

theorem State.mem_spritePixels {s : State} {x y : Nat} {n : Nibble} {px py : Nat} :
    (px, py) ∈ s.spritePixels x y n ↔ s.spriteCovers x y n px py := by
  simp only [State.spritePixels, State.spriteCovers, List.mem_flatMap, List.mem_range, mem_rowPixels, exists_and_left]

theorem activeWidth_ge (ext : Bool) : 64 ≤ activeWidth ext := by cases ext <;> decide

theorem activeHeight_ge (ext : Bool) : 32 ≤ activeHeight ext := by cases ext <;> decide

/-- A sum wraps onto different remainders while the second summand stays below the modulus. -/
theorem eq_of_add_mod_eq {a i j m : Nat} (hi : i < m) (hj : j < m) (h : (a + i) % m = (a + j) % m) : i = j :=
  Nat.ModEq.eq_of_lt_of_lt (Nat.ModEq.add_left_cancel' a h) hi hj

theorem rowPixels_nodup (ext : Bool) (x y bits : Nat) {nbits : Nat} (h : nbits ≤ 16) :
    (rowPixels ext x y bits nbits).Nodup := by
  refine (List.nodup_range.filter _).map_on fun i hi j hj heq => ?_
  have hi : i < nbits := List.mem_range.mp (List.mem_of_mem_filter hi)
  have hj : j < nbits := List.mem_range.mp (List.mem_of_mem_filter hj)
  have hwidth := activeWidth_ge ext
  exact eq_of_add_mod_eq (by omega) (by omega) (congrArg Prod.fst heq)

theorem rowPixels_inside {ext : Bool} {x y bits nbits : Nat} {p : Nat × Nat} (hp : p ∈ rowPixels ext x y bits nbits) :
    p.1 < activeWidth ext ∧ p.2 = y % activeHeight ext := by
  obtain ⟨i, -, -, hpx, hpy⟩ := mem_rowPixels.mp hp
  exact ⟨hpx ▸ Nat.mod_lt _ (activeWidth_pos ext), hpy⟩

theorem spriteShape_rows_le (ext : Bool) (n : Nibble) : (spriteShape ext n).1 ≤ 16 := by
  have hn := n.isLt
  unfold spriteShape
  split
  · exact le_refl 16
  · exact Nat.le_of_lt hn

theorem State.spriteRow_width_le (s : State) (ext : Bool) (n : Nibble) (r : Nat) : (s.spriteRow ext n r).2 ≤ 16 := by
  unfold State.spriteRow
  split
  · exact Nat.le_add_right 8 8
  · exact le_refl 16

/-- A sprite has fewer rows than the screen, and its rows are narrower: no pixel is met twice. -/
theorem State.spritePixels_nodup (s : State) (x y : Nat) (n : Nibble) : (s.spritePixels x y n).Nodup := by
  refine List.nodup_flatMap.mpr ⟨fun r _ => rowPixels_nodup _ _ _ _ (s.spriteRow_width_le _ _ _), ?_⟩
  refine List.nodup_range.pairwise_of_forall_ne fun r hr r' hr' hne p hp hp' => hne ?_
  have hr : r < _ := List.mem_range.mp hr
  have hr' : r' < _ := List.mem_range.mp hr'
  have hrows := spriteShape_rows_le s.ext n
  have hheight := activeHeight_ge s.ext
  exact eq_of_add_mod_eq (by omega) (by omega) ((rowPixels_inside hp).2.symm.trans (rowPixels_inside hp').2)

theorem State.spritePixels_inside {s : State} {x y : Nat} {n : Nibble} {px py : Nat} (hp : (px, py) ∈ s.spritePixels x y n) :
    px < activeWidth s.ext ∧ py < activeHeight s.ext := by
  obtain ⟨r, i, -, -, -, hpx, hpy⟩ := State.mem_spritePixels.mp hp
  exact ⟨hpx ▸ Nat.mod_lt _ (activeWidth_pos _), hpy ▸ Nat.mod_lt _ (activeHeight_pos _)⟩

theorem State.pixelLit_drawSprite (s : State) (x y : Nat) (n : Nibble) {px py : Nat} (hpx : px < 128) :
    pixelLit (s.drawSprite x y n).1 px py = (pixelLit s.vram px py ^^ decide ((px, py) ∈ s.spritePixels x y n)) := by
  rw [s.drawSprite_eq_drawPixels]
  exact pixelLit_drawPixels (s.spritePixels_nodup x y n)
    (fun _ hp => (State.spritePixels_inside hp).1.trans_le (activeWidth_le _)) hpx _

theorem State.drawSprite_collision (s : State) (x y : Nat) (n : Nibble) :
    (s.drawSprite x y n).2 = true ↔ ∃ p ∈ s.spritePixels x y n, pixelLit s.vram p.1 p.2 = true := by
  rw [s.drawSprite_eq_drawPixels, drawPixels_collision (s.spritePixels_nodup x y n)
    fun _ hp => (State.spritePixels_inside hp).1.trans_le (activeWidth_le _)]
  exact or_iff_right Bool.false_ne_true

/-! ### `DRW` (R175 to R178) -/

/-- The pixels that `DRW Vx,Vy,n` covers. -/
def State.drwPixels (s : State) (x y : Reg) (n : Nibble) : List (Nat × Nat) :=
  s.spritePixels (s.drawCoordinate x) (s.drawCoordinate y) n

theorem State.mem_drwPixels {s : State} {x y : Reg} {n : Nibble} {px py : Nat} :
    (px, py) ∈ s.drwPixels x y n ↔ s.spriteCovers (s.drawCoordinate x) (s.drawCoordinate y) n px py :=
  State.mem_spritePixels

/-- `VF` reads 0 once it is cleared, and every other register as before (R175). -/
theorem State.toNat_reg_cleared (s : State) (x : Reg) : ((s.setReg vf 0#8).reg x).toNat = s.drawCoordinate x := by
  rw [s.reg_setReg, State.drawCoordinate]
  split <;> rfl

theorem State.drawn_vram (s : State) (x y : Reg) (n : Nibble) :
    (s.drawn x y n).vram = (s.drawSprite (s.drawCoordinate x) (s.drawCoordinate y) n).1 := by
  rw [← s.toNat_reg_cleared x, ← s.toNat_reg_cleared y]
  rfl

theorem State.drawn_vf (s : State) (x y : Reg) (n : Nibble) :
    (s.drawn x y n).reg vf = flagByte (s.drawSprite (s.drawCoordinate x) (s.drawCoordinate y) n).2 := by
  rw [← s.toNat_reg_cleared x, ← s.toNat_reg_cleared y]
  exact State.reg_setReg_same _ _ _

theorem xor_ne_left_iff (a b : Bool) : (a ^^ b) ≠ a ↔ b = true := by cases b <;> simp

theorem flagByte_eq_one_iff (c : Bool) : flagByte c = 1#8 ↔ c = true := by cases c <;> decide

theorem flagByte_eq_one_or_zero (c : Bool) : flagByte c = 1#8 ∨ flagByte c = 0#8 := by cases c <;> decide

section

variable {x y : Reg} {n : Nibble} {s t : State}

theorem exec_drw_of_in (hin : spriteBytes s.ext n = 0 ∨ s.i.toNat + spriteBytes s.ext n ≤ 4096) :
    exec (.drw x y n) s = .next (s.drawn x y n).endCycle := by
  rw [exec_eq_endWith, effect_drw_eq_ok.mpr ⟨blockOutOfRange_eq_false hin, rfl⟩]
  rfl

/-- What a draw leaves of the framebuffer, of `VF` and of the rest, the sprite being in memory. -/
structure Draws (x y : Reg) (n : Nibble) (s t : State) : Prop where
  lit : ∀ {px py}, px < 128 → pixelLit t.vram px py = (pixelLit s.vram px py ^^ decide ((px, py) ∈ s.drwPixels x y n))
  collision : t.reg vf = 1#8 ↔ ∃ p ∈ s.drwPixels x y n, pixelLit s.vram p.1 p.2 = true
  flag : t.reg vf = 1#8 ∨ t.reg vf = 0#8
  regs : KeepsRegs s t [vf]
  frame : t = { s with v := t.v, vram := t.vram, pc := t.pc, audio := t.audio }
  form : Store.wf Config.vramSize s.vram = true → Store.wf Config.vramSize t.vram = true

theorem drawn_draws (x y : Reg) (n : Nibble) (s : State) : Draws x y n s (s.drawn x y n).endCycle where
  lit hpx := by
    rw [State.endCycle_vram, s.drawn_vram]
    exact s.pixelLit_drawSprite _ _ n hpx
  collision := by
    rw [State.reg_endCycle, s.drawn_vf, flagByte_eq_one_iff]
    exact s.drawSprite_collision _ _ n
  flag := by
    rw [State.reg_endCycle, s.drawn_vf]
    exact flagByte_eq_one_or_zero _
  regs r hr := drawn_outside x y n (by simpa using hr)
  frame := rfl
  form hs := by
    rw [State.endCycle_vram, s.drawn_vram]
    exact s.drawSprite_wf _ _ n hs

theorem exec_drw_draws (hin : spriteBytes s.ext n = 0 ∨ s.i.toNat + spriteBytes s.ext n ≤ 4096)
    (h : exec (.drw x y n) s = .next t) : Draws x y n s t := by
  cases (exec_drw_of_in hin).symm.trans h
  exact drawn_draws x y n s

theorem State.pixGet_of_inside {px py : Nat} (hpx : px < activeWidth s.ext) (hpy : py < activeHeight s.ext) :
    s.pixGet px py = pixelLit s.vram px py := by
  rw [State.pixGet, Nat.mod_eq_of_lt hpx, Nat.mod_eq_of_lt hpy]

/-- What is said of a covered pixel of the bitmap is said of it as a pixel of the active window. -/
theorem exists_drwPixels_lit_iff (s : State) (x y : Reg) (n : Nibble) (lit : Bool) :
    (∃ p ∈ s.drwPixels x y n, pixelLit s.vram p.1 p.2 = lit) ↔
      ∃ px py, s.spriteCovers (s.drawCoordinate x) (s.drawCoordinate y) n px py ∧ s.pixGet px py = lit := by
  rw [Prod.exists]
  refine exists_congr fun px => exists_congr fun py => ?_
  rw [← State.mem_drwPixels]
  refine and_congr_right fun hp => ?_
  obtain ⟨hpx, hpy⟩ := State.spritePixels_inside hp
  rw [State.pixGet_of_inside hpx hpy]

end

/-- Settles O45: the frame, the toggling and the collision of `Draws`, told in pixels of the active window. -/
theorem drawTogglesCoveredPixels : Obligations.DrawTogglesCoveredPixels := by
  intro x y n s hin
  have hdraws := drawn_draws x y n s
  refine ⟨_, exec_drw_of_in hin, fun px py hpx hpy => ?_, fun px py hpx _ houtside => ?_, ?_, hdraws.flag, hdraws.regs,
    fun _ => rfl, hdraws.frame, State.endCycle_endedAt _⟩
  · rw [State.pixGet_of_inside (s := (s.drawn x y n).endCycle) hpx hpy, State.pixGet_of_inside hpx hpy,
      hdraws.lit (hpx.trans_le (activeWidth_le _)), xor_ne_left_iff, decide_eq_true_iff, State.mem_drwPixels]
  · have hfree : (px, py) ∉ s.drwPixels x y n := fun hp => houtside (State.spritePixels_inside hp)
    rw [hdraws.lit hpx, decide_eq_false hfree, Bool.xor_false]
  · rw [hdraws.collision, exists_drwPixels_lit_iff]

/-- Settles O46: the check of the range comes before anything is written. -/
theorem drawOutOfMemoryFaults : Obligations.DrawOutOfMemoryFaults := fun x y n _ hn hout =>
  raises_of_effect_error (i := .drw x y n) (if_pos (blockOutOfRange_eq_true (Nat.pos_of_ne_zero hn) hout))

/-- Settles O47: 16 rows of two bytes only when the mode is extended and the nibble is 0. -/
theorem spriteSizesFollowTable : Obligations.SpriteSizesFollowTable := fun _ =>
  ⟨rfl, fun hn => if_neg fun h => hn h.2, rfl, rfl, rfl⟩

/-! ### Two equal draws (R175 corner case f) -/

section

variable {x y : Reg} {n : Nibble} {s t u : State}

/-- A draw keeps the coordinates the next one reads, since both read 0 from `VF`. -/
theorem Draws.keeps_drawCoordinate (h : Draws x y n s t) (r : Reg) : t.drawCoordinate r = s.drawCoordinate r := by
  unfold State.drawCoordinate
  split
  · rfl
  · next hr => rw [h.regs r (by simpa using hr)]

/-- A draw keeps the sprite and its place. -/
theorem Draws.keeps_drwPixels (h : Draws x y n s t) : t.drwPixels x y n = s.drwPixels x y n := by
  rw [State.drwPixels, h.keeps_drawCoordinate, h.keeps_drawCoordinate, h.frame]
  rfl

theorem exec_drw_twice (hin : spriteBytes s.ext n = 0 ∨ s.i.toNat + spriteBytes s.ext n ≤ 4096)
    (ht : exec (.drw x y n) s = .next t) (hu : exec (.drw x y n) t = .next u) :
    Draws x y n s t ∧ Draws x y n t u := by
  have hfirst := exec_drw_draws hin ht
  refine ⟨hfirst, exec_drw_draws ?_ hu⟩
  rw [hfirst.frame]
  exact hin

end

/-- Every bit of every byte of a framebuffer is a pixel, also beyond the 64 rows of the bitmap. -/
theorem exists_pixel_at (a : Nat) {j : Nat} (hj : j < 8) :
    ∃ px py, px < 128 ∧ pixelByte px py = a ∧ 7 - px % 8 = j := by
  refine ⟨a % 16 * 8 + (7 - j), a / 16, by omega, ?_, by omega⟩
  show 16 * (a / 16) + (a % 16 * 8 + (7 - j)) / 8 = a
  omega

theorem read_eq_of_pixelLit_eq {m m' : Store 8}
    (h : ∀ px py, px < 128 → pixelLit m px py = pixelLit m' px py) (a : Nat) : Store.read m a = Store.read m' a := by
  refine BitVec.eq_of_getLsbD_eq fun j hj => ?_
  obtain ⟨px, py, hpx, rfl, rfl⟩ := exists_pixel_at a hj
  exact h px py hpx

/-- Settles O48: each covered pixel is toggled twice, and stores in canonical form that read alike are equal. -/
theorem drawTwiceRestoresFramebuffer : Obligations.DrawTwiceRestoresFramebuffer := by
  intro x y n s t u hs hin ht hu
  obtain ⟨hfirst, hsecond⟩ := exec_drw_twice hin ht hu
  refine Store.eq_of_read_eq (hsecond.form (hfirst.form hs.vramForm)) hs.vramForm
    (read_eq_of_pixelLit_eq fun px py hpx => ?_)
  rw [hsecond.lit hpx, hfirst.lit hpx, hfirst.keeps_drwPixels, Bool.xor_assoc, Bool.xor_self, Bool.xor_false]

/-- Settles O49: a covered pixel is lit before the second draw iff it was unlit before the first. -/
theorem secondDrawCollidesIffFirstLit : Obligations.SecondDrawCollidesIffFirstLit := by
  intro x y n s t u hin ht hu
  obtain ⟨hfirst, hsecond⟩ := exec_drw_twice hin ht hu
  rw [hsecond.collision, hfirst.keeps_drwPixels, ← exists_drwPixels_lit_iff]
  refine exists_congr fun p => and_congr_right fun hp => ?_
  have hpx : p.1 < 128 := (State.spritePixels_inside hp).1.trans_le (activeWidth_le _)
  rw [hfirst.lit hpx, decide_eq_true hp, Bool.xor_true, Bool.not_eq_true']

/-! ### A row on bytes (R174) -/

/-- Whether the mask `m` put over the byte at `a` has a lit bit on pixel `(px, py)`. -/
def maskCovers (a : Nat) (m : Byte) (px py : Nat) : Bool :=
  decide (pixelByte px py = a) && m.getLsbD (7 - px % 8)

theorem maskCovers_zero (a px py : Nat) : maskCovers a 0#8 px py = false := by simp [maskCovers]

theorem maskCovers_elsewhere {a b : Nat} (hne : a ≠ b) {m m' : Byte} {px py : Nat} (h : maskCovers a m px py = true) :
    maskCovers b m' px py = false := by
  obtain ⟨ha, -⟩ := Bool.and_eq_true_iff.mp h
  rw [maskCovers, of_decide_eq_true ha, decide_eq_false hne, Bool.false_and]

theorem pixelLit_write_xor (vram : Store 8) (a : Nat) (m : Byte) (px py : Nat) :
    pixelLit (Store.write vram a (Store.read vram a ^^^ m)) px py = (pixelLit vram px py ^^ maskCovers a m px py) := by
  unfold pixelLit maskCovers
  rw [Store.read_write]
  by_cases ha : pixelByte px py = a
  · rw [if_pos ha, ha, BitVec.getLsbD_xor, decide_eq_true rfl, Bool.true_and]
  · rw [if_neg ha, decide_eq_false ha, Bool.false_and, Bool.xor_false]

/-- A byte and a mask have a bit in common iff the mask covers a lit pixel. -/
theorem read_and_bne_zero_iff (vram : Store 8) (a : Nat) (m : Byte) :
    (Store.read vram a &&& m != 0#8) = true ↔
      ∃ px py, px < 128 ∧ maskCovers a m px py = true ∧ pixelLit vram px py = true := by
  rw [bne_iff_ne]
  constructor
  · intro hne
    by_contra hnone
    refine hne (BitVec.eq_of_getLsbD_eq fun j hj => (Bool.eq_false_iff.mpr fun hbit => hnone ?_).trans BitVec.getLsbD_zero.symm)
    obtain ⟨px, py, hpx, rfl, rfl⟩ := exists_pixel_at a hj
    obtain ⟨hlit, hm⟩ := Bool.and_eq_true_iff.mp (BitVec.getLsbD_and ▸ hbit)
    exact ⟨px, py, hpx, by rw [maskCovers, hm, decide_eq_true rfl, Bool.true_and], hlit⟩
  · rintro ⟨px, py, -, hcovers, hlit⟩ hzero
    obtain ⟨ha, hm⟩ := Bool.and_eq_true_iff.mp hcovers
    obtain rfl := of_decide_eq_true ha
    have hbit := congrArg (BitVec.getLsbD · (7 - px % 8)) hzero
    simp only [BitVec.getLsbD_and, hm, Bool.and_true, BitVec.getLsbD_zero] at hbit
    exact Bool.false_ne_true (hbit.symm.trans hlit)

section

variable (ext : Bool) (x y : Nat) (bits : Byte)

/-- The bit offset of a row in its first byte. -/
def rowOffset : Nat := x % activeWidth ext % 8

theorem rowOffset_lt : rowOffset ext x < 8 := Nat.mod_lt _ (by decide)

/-- The byte in which a row begins. -/
def rowFirstByte : Nat := Config.vramRowBytes * (y % activeHeight ext) + x % activeWidth ext / 8

/-- The byte after it, on the same row of the screen. -/
def rowSecondByte : Nat :=
  Config.vramRowBytes * (y % activeHeight ext) + (x % activeWidth ext / 8 + 1) % (activeWidth ext / 8)

/-- Whether one of the two shifted parts of a row has a lit bit on pixel `(px, py)`. -/
def rowMasksCover (px py : Nat) : Bool :=
  maskCovers (rowFirstByte ext x y) (bits >>> rowOffset ext x) px py ||
    maskCovers (rowSecondByte ext x y) (bits <<< (8 - rowOffset ext x)) px py

theorem rowFirstByte_ne_rowSecondByte : rowFirstByte ext x y ≠ rowSecondByte ext x y := by
  unfold rowFirstByte rowSecondByte
  cases ext <;> simp only [activeWidth, if_true, Bool.false_eq_true, if_false] <;> omega

/-- At offset 0 nothing is left for the second byte. -/
theorem rowSecondMask_eq_zero {ext : Bool} {x : Nat} (h : rowOffset ext x = 0) :
    bits <<< (8 - rowOffset ext x) = 0#8 := by
  rw [h]
  exact BitVec.shiftLeft_eq_zero (le_refl 8)

theorem drawRowBytes_of_aligned {ext : Bool} {x : Nat} (vram : Store 8) (h : rowOffset ext x = 0) :
    drawRowBytes ext x y bits vram =
      (Store.write vram (rowFirstByte ext x y) (Store.read vram (rowFirstByte ext x y) ^^^ (bits >>> rowOffset ext x)),
        Store.read vram (rowFirstByte ext x y) &&& (bits >>> rowOffset ext x) != 0#8) :=
  if_pos h

theorem drawRowBytes_of_offset {ext : Bool} {x : Nat} (vram : Store 8) (h : rowOffset ext x ≠ 0) :
    drawRowBytes ext x y bits vram =
      let first := rowFirstByte ext x y
      let second := rowSecondByte ext x y
      let vram1 := Store.write vram first (Store.read vram first ^^^ (bits >>> rowOffset ext x))
      (Store.write vram1 second (Store.read vram1 second ^^^ (bits <<< (8 - rowOffset ext x))),
        Store.read vram first &&& (bits >>> rowOffset ext x) != 0#8 ||
          Store.read vram1 second &&& (bits <<< (8 - rowOffset ext x)) != 0#8) :=
  if_neg h

theorem pixelLit_drawRowBytes (vram : Store 8) (px py : Nat) :
    pixelLit (drawRowBytes ext x y bits vram).1 px py = (pixelLit vram px py ^^ rowMasksCover ext x y bits px py) := by
  unfold rowMasksCover
  by_cases hoffset : rowOffset ext x = 0
  · rw [drawRowBytes_of_aligned y bits vram hoffset, pixelLit_write_xor, rowSecondMask_eq_zero bits hoffset,
      maskCovers_zero, Bool.or_false]
  · rw [drawRowBytes_of_offset y bits vram hoffset, pixelLit_write_xor, pixelLit_write_xor, Bool.xor_assoc]
    congr 1
    cases hfirst : maskCovers (rowFirstByte ext x y) (bits >>> rowOffset ext x) px py with
    | false => rw [Bool.false_xor, Bool.false_or]
    | true => rw [maskCovers_elsewhere (rowFirstByte_ne_rowSecondByte ext x y) hfirst]; rfl

theorem drawRowBytes_collision_eq (vram : Store 8) :
    (drawRowBytes ext x y bits vram).2 =
      (Store.read vram (rowFirstByte ext x y) &&& (bits >>> rowOffset ext x) != 0#8 ||
        Store.read vram (rowSecondByte ext x y) &&& (bits <<< (8 - rowOffset ext x)) != 0#8) := by
  by_cases hoffset : rowOffset ext x = 0
  · rw [drawRowBytes_of_aligned y bits vram hoffset, rowSecondMask_eq_zero bits hoffset, BitVec.and_zero, bne_self_eq_false,
      Bool.or_false]
  · rw [drawRowBytes_of_offset y bits vram hoffset]
    dsimp only
    rw [Store.read_write_ne vram _ (rowFirstByte_ne_rowSecondByte ext x y).symm]

theorem drawRowBytes_collision (vram : Store 8) :
    (drawRowBytes ext x y bits vram).2 = true ↔
      ∃ px py, px < 128 ∧ rowMasksCover ext x y bits px py = true ∧ pixelLit vram px py = true := by
  rw [drawRowBytes_collision_eq, Bool.or_eq_true, read_and_bne_zero_iff, read_and_bne_zero_iff]
  simp only [rowMasksCover, Bool.or_eq_true, or_and_right, and_or_left, exists_or]

end

/-! ### The pixels of a row are those its two parts cover -/

theorem pixelByte_eq_iff {px py y c : Nat} (hpx : px < 128) (hc : c < 16) :
    pixelByte px py = Config.vramRowBytes * y + c ↔ py = y ∧ px / 8 = c := by
  show 16 * py + px / 8 = 16 * y + c ↔ _
  omega

/-- The column of bit `i` of a row lies in the byte the row begins in, or past its end in the next byte. -/
theorem column_eq_iff (ext : Bool) (x : Nat) {px i : Nat} (hi : i < 8) :
    px = (x + i) % activeWidth ext ↔
      (px / 8 = x % activeWidth ext / 8 ∧ px % 8 = rowOffset ext x + i) ∨
      (px / 8 = (x % activeWidth ext / 8 + 1) % (activeWidth ext / 8) ∧ px % 8 + 8 = rowOffset ext x + i) := by
  unfold rowOffset
  cases ext <;> simp only [activeWidth, if_true, Bool.false_eq_true, if_false] <;> omega

/-- Bit `i` of a row, counted from the left, is moved right by the offset. -/
theorem getLsbD_shiftRight_iff (bits : Byte) (o : Nat) {k : Nat} (hk : k < 8) :
    (bits >>> o).getLsbD (7 - k) = true ↔ ∃ i, i < 8 ∧ bits.getLsbD (7 - i) = true ∧ k = o + i := by
  rw [BitVec.getLsbD_ushiftRight]
  constructor
  · intro h
    have hlt := BitVec.lt_of_getLsbD h
    have hindex : 7 - (k - o) = o + (7 - k) := by omega
    exact ⟨k - o, by omega, hindex ▸ h, by omega⟩
  · rintro ⟨i, hi, h, rfl⟩
    have hindex : o + (7 - (o + i)) = 7 - i := by omega
    exact hindex ▸ h

/-- The bits moved past the end of the byte are those the shift to the left brings to its other end. -/
theorem getLsbD_shiftLeft_iff (bits : Byte) {o k : Nat} (ho : o < 8) (hk : k < 8) :
    (bits <<< (8 - o)).getLsbD (7 - k) = true ↔ ∃ i, i < 8 ∧ bits.getLsbD (7 - i) = true ∧ k + 8 = o + i := by
  simp only [BitVec.getLsbD_shiftLeft, Bool.and_eq_true, decide_eq_true_eq, Bool.not_eq_true', decide_eq_false_iff_not]
  constructor
  · rintro ⟨⟨-, hge⟩, h⟩
    have hindex : 7 - (k + 8 - o) = 7 - k - (8 - o) := by omega
    exact ⟨k + 8 - o, by omega, hindex ▸ h, by omega⟩
  · rintro ⟨i, hi, h, hki⟩
    have hindex : 7 - k - (8 - o) = 7 - i := by omega
    exact ⟨⟨by omega, by omega⟩, hindex ▸ h⟩

theorem rowFirstPart_covers_iff (ext : Bool) (x y : Nat) (bits : Byte) {px py : Nat} (hpx : px < 128) :
    maskCovers (rowFirstByte ext x y) (bits >>> rowOffset ext x) px py = true ↔
      (py = y % activeHeight ext ∧ px / 8 = x % activeWidth ext / 8) ∧
        ∃ i, i < 8 ∧ bits.getLsbD (7 - i) = true ∧ px % 8 = rowOffset ext x + i := by
  have hcolumn := (Nat.mod_lt x (activeWidth_pos ext)).trans_le (activeWidth_le ext)
  rw [maskCovers, rowFirstByte, Bool.and_eq_true, decide_eq_true_iff, pixelByte_eq_iff hpx (by omega),
    getLsbD_shiftRight_iff bits _ (Nat.mod_lt px (by decide))]

theorem rowSecondPart_covers_iff (ext : Bool) (x y : Nat) (bits : Byte) {px py : Nat} (hpx : px < 128) :
    maskCovers (rowSecondByte ext x y) (bits <<< (8 - rowOffset ext x)) px py = true ↔
      (py = y % activeHeight ext ∧ px / 8 = (x % activeWidth ext / 8 + 1) % (activeWidth ext / 8)) ∧
        ∃ i, i < 8 ∧ bits.getLsbD (7 - i) = true ∧ px % 8 + 8 = rowOffset ext x + i := by
  have hge := activeWidth_ge ext
  have hle := activeWidth_le ext
  have hnext : (x % activeWidth ext / 8 + 1) % (activeWidth ext / 8) < activeWidth ext / 8 := Nat.mod_lt _ (by omega)
  rw [maskCovers, rowSecondByte, Bool.and_eq_true, decide_eq_true_iff, pixelByte_eq_iff hpx (by omega),
    getLsbD_shiftLeft_iff bits (rowOffset_lt ext x) (Nat.mod_lt px (by decide))]

theorem mem_rowPixels_iff_rowMasksCover (ext : Bool) (x y : Nat) (bits : Byte) {px py : Nat} (hpx : px < 128) :
    (px, py) ∈ rowPixels ext x y bits.toNat 8 ↔ rowMasksCover ext x y bits px py = true := by
  rw [mem_rowPixels, rowMasksCover, Bool.or_eq_true, rowFirstPart_covers_iff ext x y bits hpx,
    rowSecondPart_covers_iff ext x y bits hpx]
  constructor
  · rintro ⟨i, hi, hbit, hpx, hpy⟩
    rw [BitVec.testBit_toNat] at hbit
    obtain ⟨hbyte, hplace⟩ | ⟨hbyte, hplace⟩ := (column_eq_iff ext x hi).mp hpx
    · exact .inl ⟨⟨hpy, hbyte⟩, i, hi, hbit, hplace⟩
    · exact .inr ⟨⟨hpy, hbyte⟩, i, hi, hbit, hplace⟩
  · rintro (⟨⟨hpy, hbyte⟩, i, hi, hbit, hplace⟩ | ⟨⟨hpy, hbyte⟩, i, hi, hbit, hplace⟩) <;>
      refine ⟨i, hi, (BitVec.testBit_toNat _).trans hbit, (column_eq_iff ext x hi).mpr ?_, hpy⟩
    · exact .inl ⟨hbyte, hplace⟩
    · exact .inr ⟨hbyte, hplace⟩

/-- Settles O50: both toggle the pixels of the row and ask whether one of them was lit. -/
theorem drawRowEqualsByteDescription : Obligations.DrawRowEqualsByteDescription := by
  intro ext x y bits vram
  have hnodup := rowPixels_nodup ext x y bits.toNat (nbits := 8) (by decide)
  have hinside : ∀ p ∈ rowPixels ext x y bits.toNat 8, p.1 < 128 := fun _ hp =>
    (rowPixels_inside hp).1.trans_le (activeWidth_le ext)
  rw [drawRow_eq_drawPixels]
  refine ⟨read_eq_of_pixelLit_eq fun px py hpx => ?_, Bool.eq_iff_iff.mpr ?_⟩
  · rw [pixelLit_drawPixels hnodup hinside hpx, pixelLit_drawRowBytes]
    simp only [mem_rowPixels_iff_rowMasksCover ext x y bits hpx, Bool.decide_eq_true]
  · rw [drawPixels_collision hnodup hinside, drawRowBytes_collision, or_iff_right Bool.false_ne_true, Prod.exists]
    refine exists_congr fun px => exists_congr fun py => ⟨fun ⟨hp, hlit⟩ => ?_, fun ⟨hpx, hcovers, hlit⟩ => ?_⟩
    · have hpx := hinside _ hp
      exact ⟨hpx, (mem_rowPixels_iff_rowMasksCover ext x y bits hpx).mp hp, hlit⟩
    · exact ⟨(mem_rowPixels_iff_rowMasksCover ext x y bits hpx).mpr hcovers, hlit⟩

end Sys2Proof.Machine

/-! ## Keys and timers (46_keys_timers.md) -/

namespace Sys2Proof.Machine

/-! ### `SKP` and `SKNP` (R190, R191) -/

/-- A key is down iff it exists and `KEY` says so (46_keys_timers.md R196). -/
theorem State.keyDown_iff (s : State) (k : Nat) : s.keyDown k = true ↔ ∃ h : k < 16, s.key[k] = true := by
  by_cases h : k < 16
  · rw [s.keyDown_of_lt h, exists_prop_of_true h]
  · rw [s.keyDown_of_ge (Nat.le_of_not_lt h)]
    exact iff_of_false Bool.false_ne_true fun ⟨hk, _⟩ => h hk

/-- Settles O51: `SKNP` skips on the negation of the condition of `SKP`. -/
theorem keySkips : Obligations.KeySkips := by
  intro x s
  have hdown := s.keyDown_iff (s.reg x).toNat
  have hup : (!s.keyDown (s.reg x).toNat) = true ↔
      ¬∃ h : (s.reg x).toNat < 16, s.key[(s.reg x).toNat] = true := by
    rw [← hdown, Bool.not_eq_true', Bool.not_eq_true]
  obtain ⟨t, ht, hkeep, hended⟩ := exec_skips (i := .sknp x) rfl hup
  rw [ite_not] at hended
  exact ⟨exec_skips rfl hdown, t, ht, hkeep, hended⟩

/-! ### `LD Vx,DT` (R192) -/

/-- Settles O52: one register is written, with the value of the delay timer. -/
theorem readDelayTimer : Obligations.ReadDelayTimer := by
  intro x s
  obtain ⟨t, ht, hx, hregs, honly, hpc, -⟩ := exec_sets_reg (i := .ldVxDt x) (s := s) rfl
  exact ⟨t, ht, hx, hregs, honly, hpc⟩

/-! ### `LD Vx,K` (R193) -/

theorem exec_ldVxK_of_some (x : Reg) {s : State} {k : Nat} (h : s.leastKey = some k) :
    exec (.ldVxK x) s = advance (s.setReg x (BitVec.ofNat 8 k)) := by
  rw [exec_eq_endWith, Instr.effect, Instr.nextPc, h]
  rfl

theorem exec_ldVxK_of_none (x : Reg) {s : State} (h : s.leastKey = none) : exec (.ldVxK x) s = .next s.audioStep := by
  rw [exec_eq_endWith, Instr.effect, Instr.nextPc, h]
  rfl

theorem State.leastKey_of_first_down {s : State} {k : Nat} (hk : k < 16) (hdown : s.key[k] = true)
    (hup : ∀ j, (hj : j < k) → s.key[j] = false) : s.leastKey = some k :=
  (s.leastKey_eq_some k).mpr
    ⟨(s.keyDown_of_lt hk).trans hdown, fun j hj => (s.keyDown_of_lt (hj.trans hk)).trans (hup j hj)⟩

theorem State.leastKey_of_all_up {s : State} (hup : ∀ k, (h : k < 16) → s.key[k] = false) : s.leastKey = none := by
  refine s.leastKey_eq_none.mpr fun k => ?_
  obtain hk | hk := Nat.lt_or_ge k 16
  · exact (s.keyDown_of_lt hk).trans (hup k hk)
  · exact s.keyDown_of_ge hk

/-- Settles O53: by whether there is a least key, whose number fits into a byte. -/
theorem waitForKey : Obligations.WaitForKey := by
  refine fun x s => ⟨fun k hk hdown hup => ?_, fun hup => ?_⟩
  · obtain ⟨t, ht, hx, hrest⟩ := exec_sets_reg (exec_ldVxK_of_some x (State.leastKey_of_first_down hk hdown hup))
    exact ⟨t, ht, (congrArg BitVec.toNat hx).trans (Nat.mod_eq_of_lt (by omega)), hrest⟩
  · exact ⟨_, exec_ldVxK_of_none x (State.leastKey_of_all_up hup), rfl, fun _ => rfl, s.audioStep_iff⟩

/-! ### `LD DT,Vx` and `LD ST,Vx` (R194, R195) -/

/-- The phase is lost exactly when the timer was at rest or is written with 0 (60_exceptions.md R214). -/
theorem Timer.set_eq (t : Timer) (v : Byte) :
    t.set v = { value := v, phase := if t.value = 0#8 ∨ v = 0#8 then 0 else t.phase } := by
  unfold Timer.set
  split
  · next hv => rw [hv, if_pos (.inr rfl)]
  · next hv =>
    split
    · next ht => rw [if_pos (.inl ht)]
    · next ht => rw [if_neg (not_or.mpr ⟨ht, hv⟩)]

/-- Settles O54: both complete with their timer set. -/
theorem setTimers : Obligations.SetTimers := by
  intro x s
  have hdt := s.dt.set_eq (s.reg x)
  have hst := s.st.set_eq (s.reg x)
  exact ⟨⟨_, exec_eq_endWith (.ldDtVx x) s, congrArg Timer.value hdt, congrArg Timer.phase hdt, fun _ => rfl, rfl,
      State.endCycle_endedAt { s with dt := s.dt.set (s.reg x) }⟩,
    _, exec_eq_endWith (.ldStVx x) s, congrArg Timer.value hst, congrArg Timer.phase hst, fun _ => rfl, rfl,
      State.endCycle_endedAt { s with st := s.st.set (s.reg x) }⟩

end Sys2Proof.Machine

/-! ## Exceptions and timers (60_exceptions.md) -/

namespace Sys2Proof.Machine

/-! ### The fault a handler can raise (R200, R210) -/

theorem State.setI_eq_error {s : State} {v : Nat} {f : CycleFault} :
    s.setI v = .error f ↔ 4096 ≤ v ∧ f = .indexOutOfRange v s.pc s.ir := by
  obtain h | h := Nat.lt_or_ge v 4096
  · simp [s.setI_of_lt h, h]
  · simp [s.setI_of_ge h, h, eq_comm]

theorem State.push_eq_error {s : State} {v : Word} {f : CycleFault} :
    s.push v = .error f ↔ s.config.stackDepth ≤ s.sp ∧ f = .stackOverflow s.pc s.ir := by
  obtain h | h := Nat.lt_or_ge s.sp s.config.stackDepth
  · simp [s.push_of_lt v h, h]
  · simp [s.push_of_ge v h, h, eq_comm]

theorem State.popped_eq_error {s : State} {f : CycleFault} :
    s.pop.map Prod.snd = .error f ↔ s.sp = 0 ∧ f = .stackUnderflow s.pc s.ir := by
  obtain h | h := Nat.eq_zero_or_pos s.sp
  · simp [s.pop_of_zero h, Except.map, h, eq_comm]
  · simp [s.pop_of_pos h, Except.map, Nat.ne_of_gt h]

theorem State.writeBlock_eq_error {s : State} {a : Nat} {bs : List Byte} {f : CycleFault} :
    s.writeBlock a bs = .error f ↔
      blockOutOfRange a bs.length = true ∧ f = .memAccessOutOfRange 4096 s.pc s.ir := by
  unfold State.writeBlock
  cases blockOutOfRange a bs.length <;> simp [eq_comm]

theorem State.loadedBlock_eq_error {s : State} {a n : Nat} {f : CycleFault} :
    (s.readBlock a n).map s.loaded = .error f ↔
      blockOutOfRange a n = true ∧ f = .memAccessOutOfRange 4096 s.pc s.ir := by
  unfold State.readBlock
  cases blockOutOfRange a n <;> simp [Except.map, eq_comm]

theorem effect_drw_eq_error {s : State} {x y : Reg} {n : Nibble} {f : CycleFault} :
    (Instr.drw x y n).effect s = .error f ↔
      blockOutOfRange s.i.toNat (spriteBytes s.ext n) = true ∧ f = .memAccessOutOfRange 4096 s.pc s.ir := by
  rw [Instr.effect]
  cases blockOutOfRange s.i.toNat (spriteBytes s.ext n) <;> simp [eq_comm]

/-- A handler raises only the faults listed for its instruction. `LD I,addr` and `LD F,Vx` write `I` but never a value above
4095: 12 bits in the one, at most 5 * 255 in the other. -/
theorem effect_error_mayRaise {i : Instr} {s : State} {f : CycleFault} (h : i.effect s = .error f) :
    i.mayRaise f = true := by
  cases i with
  | cls | low | high | jp | jpV0 | seImm | sneImm | seReg | sneReg | skp | sknp | ldImm | addImm | ldReg | orReg | andReg
  | xorReg | addReg | sub | shr | subn | shl | rnd | ldVxDt | ldVxK | ldDtVx | ldStVx => cases h
  | ret => rw [(State.popped_eq_error.mp h).2]; rfl
  | call => rw [(State.push_eq_error.mp h).2]; rfl
  | addI => rw [(State.setI_eq_error.mp h).2]; rfl
  | ldI nnn => exact absurd nnn.isLt (Nat.not_lt.mpr (State.setI_eq_error.mp h).1)
  | ldF x =>
    have hbyte := (s.reg x).isLt
    have habove : 4096 ≤ (s.reg x).toNat * 5 := (State.setI_eq_error.mp h).1
    omega
  | ldB | ldStore => rw [(State.writeBlock_eq_error.mp h).2]; rfl
  | ldLoad => rw [(State.loadedBlock_eq_error.mp h).2]; rfl
  | drw => rw [(effect_drw_eq_error.mp h).2]; rfl

/-- Settles O12: an instruction that completes keeps `STATUS` at `Running`, and one that faults has its handler's fault. -/
theorem onlyListedInstructionsFault : Obligations.OnlyListedInstructionsFault := by
  intro i s t f hs hexec hf
  obtain ⟨u, hu, rfl⟩ | ⟨g, hg, rfl⟩ := exec_cases hexec
  · have hstatus : u.status = .faulted f := hf
    cases ((effect_status hu).trans hs).symm.trans hstatus
  · cases hf
    exact effect_error_mayRaise hg

/-! ### `TimerTick` (R215) -/

theorem Timer.tick_of_rest {t : Timer} (h : t.value = 0#8) : t.tick = t := if_pos h

/-- A tick of a running countdown; the phase is lost exactly when it ends the countdown. -/
theorem Timer.tick_of_running {t : Timer} (h : t.value ≠ 0#8) :
    t.tick = { value := t.value - 1#8, phase := if t.value - 1#8 = 0#8 then 0 else t.phase } := by
  rw [Timer.tick, if_neg h]
  split
  · next hlast => rw [hlast]; rfl
  · next hlast => rw [if_neg fun hz => hlast (by simpa using BitVec.sub_eq_iff_eq_add.mp hz)]

theorem Timer.tick_value_phase {t : Timer} (h : 0 < t.value.toNat) :
    t.tick.value.toNat + 1 = t.value.toNat ∧ t.tick.phase = if t.tick.value = 0#8 then 0 else t.phase := by
  rw [Timer.tick_of_running (BitVec.toNat_ne_iff_ne.mp (Nat.ne_of_gt h))]
  exact ⟨by bv_omega, rfl⟩

/-- Settles O55: an untimed tick waits for no burst and asks nothing of `STATUS`. -/
theorem timerTickDecrements : Obligations.TimerTickDecrements := fun _ _ =>
  ⟨fun ha => ⟨_, step_other _ (turn_of_agenda ha nofun rfl), Timer.tick_value_phase, Timer.tick_of_rest, rfl⟩,
    fun ha => ⟨_, step_other _ (turn_of_agenda ha nofun rfl), Timer.tick_value_phase, Timer.tick_of_rest, rfl⟩⟩

/-! ### The cadence of a countdown (R216, R217) -/

theorem ticksDue_eq_floor (p : Rat) : ticksDue p = ⌊p * 60⌋₊ := Int.floor_toNat (p * (60 : Nat))

theorem ticksDue_mono {p q : Rat} (h : p ≤ q) : ticksDue p ≤ ticksDue q := by
  rw [ticksDue_eq_floor, ticksDue_eq_floor]
  exact Nat.floor_mono (by linarith)

/-- The `k`-th tick of a countdown falls due at `k/60` seconds and the next one not before `(k+1)/60`. -/
theorem ticksDue_eq_of_bounds {p : Rat} {k : Nat} (hlo : (k : Rat) / 60 ≤ p) (hhi : p < ((k : Rat) + 1) / 60) :
    ticksDue p = k := by
  have hp : 0 ≤ p := le_trans (by positivity) hlo
  rw [ticksDue_eq_floor, Nat.floor_eq_iff (by positivity)]
  constructor <;> linarith

/-- The ticks that fall due in the `d` seconds after a phase. -/
def ticksWithin (phase d : Rat) : Nat := ticksDue (phase + d) - ticksDue phase

theorem ticksWithin_zero (d : Rat) : ticksWithin 0 d = ticksDue d := by
  have hnone : ticksDue 0 = 0 := ticksDue_eq_of_bounds (by norm_num) (by norm_num)
  rw [ticksWithin, zero_add, hnone, Nat.sub_zero]

theorem ticksWithin_add (p : Rat) {d e : Rat} (hd : 0 ≤ d) (he : 0 ≤ e) :
    ticksWithin p (d + e) = ticksWithin p d + ticksWithin (p + d) e := by
  have hfirst : ticksDue p ≤ ticksDue (p + d) := ticksDue_mono (le_add_of_nonneg_right hd)
  have hsecond : ticksDue (p + d) ≤ ticksDue (p + d + e) := ticksDue_mono (le_add_of_nonneg_right he)
  simp only [ticksWithin, ← add_assoc]
  omega

/-- A timer armed at rest starts its countdown at phase 0. -/
theorem Timer.set_of_rest (v : Byte) : Timer.set { value := 0#8, phase := 0 } v = { value := v, phase := 0 } := by
  rw [Timer.set_eq, if_pos (.inl rfl)]

section
variable {t : Timer} {d : Rat}

theorem Timer.elapse_of_rest (h : t.value = 0#8) : t.elapse d = t := if_pos (.inl h)

theorem Timer.elapse_of_neg (h : d < 0) : t.elapse d = t := if_pos (.inr h)

theorem Timer.elapse_of_expired (hrun : t.value ≠ 0#8) (hd : 0 ≤ d) (h : t.value.toNat ≤ ticksWithin t.phase d) :
    t.elapse d = { value := 0#8, phase := 0 } := by
  rw [Timer.elapse, if_neg (not_or.mpr ⟨hrun, not_lt.mpr hd⟩)]
  exact if_pos h

theorem Timer.elapse_of_due_lt (hd : 0 ≤ d) (h : ticksWithin t.phase d < t.value.toNat) :
    t.elapse d = { value := BitVec.ofNat 8 (t.value.toNat - ticksWithin t.phase d), phase := t.phase + d } := by
  have hrun : t.value ≠ 0#8 := BitVec.toNat_ne_iff_ne.mp (Nat.ne_zero_of_lt h)
  rw [Timer.elapse, if_neg (not_or.mpr ⟨hrun, not_lt.mpr hd⟩)]
  exact if_neg (Nat.not_le.mpr h)

theorem Timer.elapse_value (hd : 0 ≤ d) : (t.elapse d).value.toNat = t.value.toNat - ticksWithin t.phase d := by
  have hbyte := t.value.isLt
  obtain h | h := Nat.lt_or_ge (ticksWithin t.phase d) t.value.toNat
  · rw [Timer.elapse_of_due_lt hd h]
    exact Nat.mod_eq_of_lt (by omega)
  · by_cases hrun : t.value = 0#8
    · rw [Timer.elapse_of_rest hrun, hrun]
      exact (Nat.zero_sub _).symm
    · rw [Timer.elapse_of_expired hrun hd h]
      exact (Nat.sub_eq_zero_of_le h).symm

/-- Time passes in any portions alike: the first portion ends the countdown, or the second does, or neither. -/
theorem Timer.elapse_elapse {e : Rat} (hd : 0 ≤ d) (he : 0 ≤ e) : (t.elapse d).elapse e = t.elapse (d + e) := by
  have hde : 0 ≤ d + e := add_nonneg hd he
  have hsum := ticksWithin_add t.phase hd he
  by_cases hrun : t.value = 0#8
  · rw [Timer.elapse_of_rest hrun, Timer.elapse_of_rest hrun, Timer.elapse_of_rest hrun]
  obtain hfirst | hfirst := Nat.lt_or_ge (ticksWithin t.phase d) t.value.toNat
  · have hleft := Timer.elapse_value (t := t) hd
    rw [Timer.elapse_of_due_lt hd hfirst] at hleft ⊢
    obtain hsecond | hsecond := Nat.lt_or_ge (ticksWithin (t.phase + d) e) (t.value.toNat - ticksWithin t.phase d)
    · rw [Timer.elapse_of_due_lt he (hsecond.trans_eq hleft.symm), Timer.elapse_of_due_lt hde (by omega),
        hleft, hsum, Nat.sub_sub, add_assoc]
    · have hstill := BitVec.toNat_ne_iff_ne (y := 0#8).mp (hleft.trans_ne (Nat.sub_ne_zero_of_lt hfirst))
      rw [Timer.elapse_of_expired hstill he (hleft.trans_le hsecond), Timer.elapse_of_expired hrun hde (by omega)]
  · rw [Timer.elapse_of_expired hrun hd hfirst, Timer.elapse_of_expired hrun hde (by omega)]
    exact Timer.elapse_of_rest rfl

end

/-- Settles O56: the ticks due by `d` seconds are counted from the start of the countdown, and portions of time add up. -/
theorem countdownKeepsCadence : Obligations.CountdownKeepsCadence := by
  refine ⟨fun v d k _ hlo hhi => ?_, fun t d e _ hd he => Timer.elapse_elapse hd he, fun t v hv ht => ?_,
    fun s d rest ha => ⟨step_other s (turn_of_agenda ha nofun rfl), fun hd => ?_⟩⟩
  · have hd : 0 ≤ d := le_trans (by positivity) hlo
    rw [Timer.set_of_rest, Timer.elapse_value hd, ticksWithin_zero, ticksDue_eq_of_bounds hlo hhi]
  · rw [Timer.set_eq]
    exact if_neg (not_or.mpr ⟨ht, hv⟩)
  · exact ⟨Timer.elapse_of_neg hd, Timer.elapse_of_neg hd⟩

end Sys2Proof.Machine
